-- ==== Sys2Proof/Word.lean ====
section
/-! DEFINITION. The widths of the core (00_scope.md R7, R8; 20_memory.md R52; 30_encoding.md R72). -/

namespace Sys2Proof

/-- A data register, operand or ALU result (00_scope.md R7). -/
abbrev Byte := BitVec 8

/-- A 16-bit value: the program counter, an address, the data of a response (00_scope.md R7; 20_memory.md R52; 30_encoding.md R70). -/
abbrev Half := BitVec 16

/-- A command word (30_encoding.md R70, R72), and the `info` of the fault latch (10_state.md R33). -/
abbrev CmdWord := BitVec 32

end Sys2Proof
end

