-- ==== Sys2Proof/Config.lean ====
section
/-! DEFINITION. The four parameters of the core, "configuration fixed for the life of the core" (10_state.md R21; 00_scope.md R8 to R11). -/

namespace Sys2Proof

/-- `ADC_CARRY_RULE` (00_scope.md R9). -/
inductive AdcCarryRule where
  /-- C is set iff the unsigned sum exceeds 255. -/
  | full
  /-- C is the literal test of the source: the result is less than the accumulator before. -/
  | literalCompare
  deriving DecidableEq, Repr

/-- `DECIMAL_POLICY` (00_scope.md R10). -/
inductive DecimalPolicy where
  /-- ADC and SBC are binary whatever D holds. -/
  | ignore
  /-- ADC and SBC are refused while D = 1. -/
  | refuse
  deriving DecidableEq, Repr

/-- The parameters (00_scope.md R8 to R11). -/
structure Config where
  /-- `MEM_SIZE`, the number of bytes of the memory array (00_scope.md R8). -/
  memSize : Nat
  adcCarryRule : AdcCarryRule
  decimalPolicy : DecimalPolicy
  /-- `EXT_ALU_OPS`: whether the SBC, ORA and EOR commands exist (00_scope.md R11). -/
  extAluOps : Bool
  deriving DecidableEq, Repr

/-- `MEM_SIZE` is "a positive integer at most 65536" (00_scope.md R8). -/
abbrev Config.wf (cfg : Config) : Prop := 1 ≤ cfg.memSize ∧ cfg.memSize ≤ 65536

/-- The defaults of 00_scope.md R8 to R11. -/
def Config.default : Config where
  memSize := 65536
  adcCarryRule := .full
  decimalPolicy := .ignore
  extAluOps := true

end Sys2Proof
end

