-- ==== Sys2Proof/Syntax.lean ====
section
/-! DEFINITION. The commands of the core: one constructor per row of spec/opcode_table.json (30_encoding.md R74 to R76). -/

namespace Sys2Proof

/-- A command with its operands. `v` is the field V, `m` the field M, `addr` and `w` the field IMM16, `d` the data byte
of MEMWRITE in the field M (30_encoding.md R72, R75). -/
inductive Instr where
  | adc (v : Byte)
  | and (v : Byte)
  | setnz (v : Byte)
  | setmask (m : Byte) (v : Byte)
  | contains (m : Byte)
  | remove (m : Byte)
  | getcarry
  | memread (addr : Half)
  | memwrite (addr : Half) (d : Byte)
  | regrdA
  | regrdX
  | regrdY
  | regrdSP
  | regrdPC
  | regrdP
  | regwrA (v : Byte)
  | regwrX (v : Byte)
  | regwrY (v : Byte)
  | regwrSP (v : Byte)
  | regwrPC (w : Half)
  | regwrP (v : Byte)
  | reset
  | sbc (v : Byte)
  | ora (v : Byte)
  | eor (v : Byte)
  deriving DecidableEq, Repr

end Sys2Proof
end

