-- ==== Sys2Proof/WellFormed.lean ====
section
/-! DEFINITION. Which commands exist in a configuration. Every operand field has exactly the width of its bit vector, so the
one check left is the parameter `EXT_ALU_OPS` (00_scope.md R11; 30_encoding.md R78). -/

namespace Sys2Proof

/-- The command exists under `cfg`: SBC, ORA and EOR only when `EXT_ALU_OPS` is true (00_scope.md R11). -/
def Instr.wellFormed (cfg : Config) : Instr → Bool
  | .sbc _ => cfg.extAluOps
  | .ora _ => cfg.extAluOps
  | .eor _ => cfg.extAluOps
  | .adc _ => true
  | .and _ => true
  | .setnz _ => true
  | .setmask _ _ => true
  | .contains _ => true
  | .remove _ => true
  | .getcarry => true
  | .memread _ => true
  | .memwrite _ _ => true
  | .regrdA => true
  | .regrdX => true
  | .regrdY => true
  | .regrdSP => true
  | .regrdPC => true
  | .regrdP => true
  | .regwrA _ => true
  | .regwrX _ => true
  | .regwrY _ => true
  | .regwrSP _ => true
  | .regwrPC _ => true
  | .regwrP _ => true
  | .reset => true

end Sys2Proof
end

