-- ==== Sys2Proof/Decode.lean ====
section
/-! DEFINITION. The command word: its fields, the decoder of 30_encoding.md R79, total on every 32-bit word, the encoder, and
the opcode table as data. -/

namespace Sys2Proof

/-- The fields of a command word (30_encoding.md R72). `IMM16` is `H` above `V`. -/
structure CmdFields where
  op : BitVec 4
  sel : BitVec 4
  m : Byte
  h : Byte
  v : Byte
  deriving DecidableEq, Repr

/-- Why a word is reserved (30_encoding.md R78). Every reason raises the one fault IllegalCommand (60_exceptions.md R202). -/
inductive DecodeReject where
  /-- `OP = 0x0`. -/
  | reservedOp
  /-- SBC, ORA or EOR with `EXT_ALU_OPS = false`. -/
  | extensionDisabled
  /-- REGRD or REGWR with `SEL` 6 to 15. -/
  | reservedSelector
  /-- A non-zero value in a field R75 requires to be zero. -/
  | mustBeZero
  deriving DecidableEq, Repr

/-- A row of spec/opcode_table.json: the word is the row's command when `word &&& mask = bits`. -/
structure TableRow where
  mnemonic : String
  mask : CmdWord
  bits : CmdWord
  deriving DecidableEq, Repr

/-- OP = CW[31:28], SEL = CW[27:24], M = CW[23:16], H = CW[15:8], V = CW[7:0] (30_encoding.md R72, R79). -/
def fieldsOf (cw : CmdWord) : CmdFields where
  op := cw.extractLsb' 28 4
  sel := cw.extractLsb' 24 4
  m := cw.extractLsb' 16 8
  h := cw.extractLsb' 8 8
  v := cw.extractLsb' 0 8

/-- The word with the given fields, OP in the high bits (30_encoding.md R72). -/
def wordOf (f : CmdFields) : CmdWord := f.op ++ f.sel ++ f.m ++ f.h ++ f.v

/-- `IMM16 = CW[15:0]`, that is H above V (30_encoding.md R72). -/
def imm16 (f : CmdFields) : Half := f.h ++ f.v

/-- Bits 15..8 of a 16-bit operand, its field H (30_encoding.md R75). -/
def highByte (w : Half) : Byte := w.extractLsb' 8 8

/-- Bits 7..0 of a 16-bit operand, its field V (30_encoding.md R75). -/
def lowByte (w : Half) : Byte := w.extractLsb' 0 8

/-- Accept `i` when every must-be-zero field is zero (30_encoding.md R75, R78). -/
def whenZero (zero : Bool) (i : Instr) : Except DecodeReject Instr :=
  if zero then .ok i else .error .mustBeZero

/-- Accept an extension command only when `EXT_ALU_OPS` is true (30_encoding.md R78, R79). -/
def whenExtension (cfg : Config) (r : Except DecodeReject Instr) : Except DecodeReject Instr :=
  if cfg.extAluOps then r else .error .extensionDisabled

/-- The register selector of REGRD (30_encoding.md R76). -/
def decodeRegrd (sel : BitVec 4) (zero : Bool) : Except DecodeReject Instr :=
  match sel.toNat with
  | 0 => whenZero zero .regrdA
  | 1 => whenZero zero .regrdX
  | 2 => whenZero zero .regrdY
  | 3 => whenZero zero .regrdSP
  | 4 => whenZero zero .regrdPC
  | 5 => whenZero zero .regrdP
  | _ => .error .reservedSelector

/-- The register selector of REGWR (30_encoding.md R76): H must be zero but for PC (R75). -/
def decodeRegwr (f : CmdFields) : Except DecodeReject Instr :=
  match f.sel.toNat with
  | 0 => whenZero (f.m == 0 && f.h == 0) (.regwrA f.v)
  | 1 => whenZero (f.m == 0 && f.h == 0) (.regwrX f.v)
  | 2 => whenZero (f.m == 0 && f.h == 0) (.regwrY f.v)
  | 3 => whenZero (f.m == 0 && f.h == 0) (.regwrSP f.v)
  | 4 => whenZero (f.m == 0) (.regwrPC (imm16 f))
  | 5 => whenZero (f.m == 0 && f.h == 0) (.regwrP f.v)
  | _ => .error .reservedSelector

/-- The case analysis of 30_encoding.md R79 over the fields of a word. -/
def decodeFields (cfg : Config) (f : CmdFields) : Except DecodeReject Instr :=
  match f.op.toNat with
  | 0x1 => whenZero (f.sel == 0 && f.m == 0 && f.h == 0) (.adc f.v)
  | 0x2 => whenZero (f.sel == 0 && f.m == 0 && f.h == 0) (.and f.v)
  | 0x3 => whenZero (f.sel == 0 && f.m == 0 && f.h == 0) (.setnz f.v)
  | 0x4 => whenZero (f.sel == 0 && f.h == 0) (.setmask f.m f.v)
  | 0x5 => whenZero (f.sel == 0 && imm16 f == 0) (.contains f.m)
  | 0x6 => whenZero (f.sel == 0 && imm16 f == 0) (.remove f.m)
  | 0x7 => whenZero (f.sel == 0 && f.m == 0 && imm16 f == 0) .getcarry
  | 0x8 => whenZero (f.sel == 0 && f.m == 0) (.memread (imm16 f))
  | 0x9 => whenZero (f.sel == 0) (.memwrite (imm16 f) f.m)
  | 0xA => decodeRegrd f.sel (f.m == 0 && imm16 f == 0)
  | 0xB => decodeRegwr f
  | 0xC => whenZero (f.sel == 0 && f.m == 0 && imm16 f == 0) .reset
  | 0xD => whenExtension cfg (whenZero (f.sel == 0 && f.m == 0 && f.h == 0) (.sbc f.v))
  | 0xE => whenExtension cfg (whenZero (f.sel == 0 && f.m == 0 && f.h == 0) (.ora f.v))
  | 0xF => whenExtension cfg (whenZero (f.sel == 0 && f.m == 0 && f.h == 0) (.eor f.v))
  | _ => .error .reservedOp

/-- The decoder (30_encoding.md R79): a command, or the reason the word is reserved. -/
def decode (cfg : Config) (cw : CmdWord) : Except DecodeReject Instr := decodeFields cfg (fieldsOf cw)

/-- The command a word stands for, none for a reserved word. -/
def decode? (cfg : Config) (cw : CmdWord) : Option Instr :=
  match decode cfg cw with
  | .ok i => some i
  | .error _ => none

/-- The word of an instruction whose table bits are `w`: bits at and above `nbits` are 0, and a command is exactly one
32-bit word (30_encoding.md R72; log 12). -/
def tableWord (nbits w : Nat) : CmdWord := BitVec.ofNat 32 (w % 2 ^ nbits)

/-- The instruction the decoder reads from a word numbered as spec/opcode_table.json numbers it, under the default
configuration, which is that of the core after reset (log 12). -/
def decodeTableWord (nbits w : Nat) : Option Instr := decode? Config.default (tableWord nbits w)

/-- The fields of a command's word, from the tables of 30_encoding.md R74 to R76. -/
def encodeFields : Instr → CmdFields
  | .adc v => ⟨0x1#4, 0, 0, 0, v⟩
  | .and v => ⟨0x2#4, 0, 0, 0, v⟩
  | .setnz v => ⟨0x3#4, 0, 0, 0, v⟩
  | .setmask m v => ⟨0x4#4, 0, m, 0, v⟩
  | .contains m => ⟨0x5#4, 0, m, 0, 0⟩
  | .remove m => ⟨0x6#4, 0, m, 0, 0⟩
  | .getcarry => ⟨0x7#4, 0, 0, 0, 0⟩
  | .memread addr => ⟨0x8#4, 0, 0, highByte addr, lowByte addr⟩
  | .memwrite addr d => ⟨0x9#4, 0, d, highByte addr, lowByte addr⟩
  | .regrdA => ⟨0xA#4, 0, 0, 0, 0⟩
  | .regrdX => ⟨0xA#4, 1, 0, 0, 0⟩
  | .regrdY => ⟨0xA#4, 2, 0, 0, 0⟩
  | .regrdSP => ⟨0xA#4, 3, 0, 0, 0⟩
  | .regrdPC => ⟨0xA#4, 4, 0, 0, 0⟩
  | .regrdP => ⟨0xA#4, 5, 0, 0, 0⟩
  | .regwrA v => ⟨0xB#4, 0, 0, 0, v⟩
  | .regwrX v => ⟨0xB#4, 1, 0, 0, v⟩
  | .regwrY v => ⟨0xB#4, 2, 0, 0, v⟩
  | .regwrSP v => ⟨0xB#4, 3, 0, 0, v⟩
  | .regwrPC w => ⟨0xB#4, 4, 0, highByte w, lowByte w⟩
  | .regwrP v => ⟨0xB#4, 5, 0, 0, v⟩
  | .reset => ⟨0xC#4, 0, 0, 0, 0⟩
  | .sbc v => ⟨0xD#4, 0, 0, 0, v⟩
  | .ora v => ⟨0xE#4, 0, 0, 0, v⟩
  | .eor v => ⟨0xF#4, 0, 0, 0, v⟩

/-- The word of a command. -/
def encode (i : Instr) : CmdWord := wordOf (encodeFields i)

/-- Rows of spec/opcode_table.json: mnemonic, mask, match. -/
def tableAluStatusMemory : List TableRow := [
  ⟨"ADC", 0xFFFFFF00#32, 0x10000000#32⟩,
  ⟨"AND", 0xFFFFFF00#32, 0x20000000#32⟩,
  ⟨"SETNZ", 0xFFFFFF00#32, 0x30000000#32⟩,
  ⟨"SETMASK", 0xFF00FF00#32, 0x40000000#32⟩,
  ⟨"CONTAINS", 0xFF00FFFF#32, 0x50000000#32⟩,
  ⟨"REMOVE", 0xFF00FFFF#32, 0x60000000#32⟩,
  ⟨"GETCARRY", 0xFFFFFFFF#32, 0x70000000#32⟩,
  ⟨"MEMREAD", 0xFFFF0000#32, 0x80000000#32⟩,
  ⟨"MEMWRITE", 0xFF000000#32, 0x90000000#32⟩]

/-- Rows of spec/opcode_table.json: mnemonic, mask, match. -/
def tableRegrd : List TableRow := [
  ⟨"REGRD.A", 0xFFFFFFFF#32, 0xA0000000#32⟩,
  ⟨"REGRD.X", 0xFFFFFFFF#32, 0xA1000000#32⟩,
  ⟨"REGRD.Y", 0xFFFFFFFF#32, 0xA2000000#32⟩,
  ⟨"REGRD.SP", 0xFFFFFFFF#32, 0xA3000000#32⟩,
  ⟨"REGRD.PC", 0xFFFFFFFF#32, 0xA4000000#32⟩,
  ⟨"REGRD.P", 0xFFFFFFFF#32, 0xA5000000#32⟩]

/-- Rows of spec/opcode_table.json: mnemonic, mask, match. -/
def tableRegwr : List TableRow := [
  ⟨"REGWR.A", 0xFFFFFF00#32, 0xB0000000#32⟩,
  ⟨"REGWR.X", 0xFFFFFF00#32, 0xB1000000#32⟩,
  ⟨"REGWR.Y", 0xFFFFFF00#32, 0xB2000000#32⟩,
  ⟨"REGWR.SP", 0xFFFFFF00#32, 0xB3000000#32⟩,
  ⟨"REGWR.PC", 0xFFFF0000#32, 0xB4000000#32⟩,
  ⟨"REGWR.P", 0xFFFFFF00#32, 0xB5000000#32⟩]

/-- Rows of spec/opcode_table.json: mnemonic, mask, match. -/
def tableResetExt : List TableRow := [
  ⟨"RESET", 0xFFFFFFFF#32, 0xC0000000#32⟩,
  ⟨"SBC", 0xFFFFFF00#32, 0xD0000000#32⟩,
  ⟨"ORA", 0xFFFFFF00#32, 0xE0000000#32⟩,
  ⟨"EOR", 0xFFFFFF00#32, 0xF0000000#32⟩]

/-- spec/opcode_table.json, every row in its order. -/
def opcodeTable : List TableRow := tableAluStatusMemory ++ tableRegrd ++ tableRegwr ++ tableResetExt

/-- The word is one the row's mask and match accept. -/
def TableRow.accepts (r : TableRow) (cw : CmdWord) : Bool := cw &&& r.mask == r.bits

/-- The mnemonic of a command's row in spec/opcode_table.json. -/
def Instr.mnemonic : Instr → String
  | .adc _ => "ADC"
  | .and _ => "AND"
  | .setnz _ => "SETNZ"
  | .setmask _ _ => "SETMASK"
  | .contains _ => "CONTAINS"
  | .remove _ => "REMOVE"
  | .getcarry => "GETCARRY"
  | .memread _ => "MEMREAD"
  | .memwrite _ _ => "MEMWRITE"
  | .regrdA => "REGRD.A"
  | .regrdX => "REGRD.X"
  | .regrdY => "REGRD.Y"
  | .regrdSP => "REGRD.SP"
  | .regrdPC => "REGRD.PC"
  | .regrdP => "REGRD.P"
  | .regwrA _ => "REGWR.A"
  | .regwrX _ => "REGWR.X"
  | .regwrY _ => "REGWR.Y"
  | .regwrSP _ => "REGWR.SP"
  | .regwrPC _ => "REGWR.PC"
  | .regwrP _ => "REGWR.P"
  | .reset => "RESET"
  | .sbc _ => "SBC"
  | .ora _ => "ORA"
  | .eor _ => "EOR"

end Sys2Proof
end

