-- ==== Sys2Proof/Machine/Operands.lean ====
section
/-! DEFINITION. How operands and results are read: unsigned, signed, zero-extended (00_scope.md R13, R14; 30_encoding.md R73). -/

namespace Sys2Proof.Machine

/-- The unsigned value of a byte (00_scope.md R13). -/
abbrev u8 (b : Byte) : Nat := b.toNat

/-- The unsigned value of a 16-bit pattern (00_scope.md R13). -/
abbrev u16 (w : Half) : Nat := w.toNat

/-- The two's-complement value of a byte, `u8(b) - 256 * b[7]` (00_scope.md R13). -/
def s8 (b : Byte) : Int := (b.toNat : Int) - 256 * (b.getLsbD 7).toNat

/-- `zext_16` of a byte (00_scope.md R14). -/
def zext16 (b : Byte) : Half := b.setWidth 16

/-- `zext_32` of an address (00_scope.md R14). -/
def zext32 (w : Half) : CmdWord := w.setWidth 32

/-- `zext_16` of the integer 0 or 1 (40_status_ops.md R100, R110). -/
def bit16 (b : Bool) : Half := if b then 0x0001 else 0x0000

/-- The low byte of the 16-bit value of REGWR, its field V (44_register_ops.md R183). -/
def byteOf (w : Half) : Byte := w.setWidth 8

end Sys2Proof.Machine
end

