-- ==== Sys2Proof/Machine/State.lean ====
section
/-! DEFINITION. The state of the core (10_state.md), the reasons a step stops, and the state after reset. -/

namespace Sys2Proof.Machine

/-- The fault codes (60_exceptions.md R201). -/
inductive FaultCode where
  | boundsViolation
  | illegalCommand
  deriving DecidableEq, Repr

/-- The record `(code, info)` of the fault latch (10_state.md R33). -/
structure FaultRecord where
  code : FaultCode
  info : CmdWord
  deriving DecidableEq, Repr

/-- The status of a response (30_encoding.md R70). -/
inductive RespStatus where
  | ok
  | fault
  deriving DecidableEq, Repr

/-- A response `(status, data)` (30_encoding.md R70). -/
structure Response where
  status : RespStatus
  data : Half
  deriving DecidableEq, Repr

/-- The bytes of memory that differ from what an unlisted address reads as (log 9). -/
abbrev Memory := List Host.Cell

/-- The core. The first eight fields are its state (10_state.md R20), `cfg` its parameters (10_state.md R21; log 3), `cmds`
and `resp` its two ports (30_encoding.md R70; log 1, log 2). -/
structure State where
  /-- Accumulator (10_state.md R22). -/
  a : Byte
  /-- Index register X (10_state.md R23). -/
  x : Byte
  /-- Index register Y (10_state.md R23). -/
  y : Byte
  /-- Stack pointer (10_state.md R24). -/
  sp : Byte
  /-- Program counter (10_state.md R26). -/
  pc : Half
  /-- Status register, N V U B D I Z C in bits 7 to 0 (10_state.md R27). -/
  p : Byte
  /-- The memory array (20_memory.md R50). -/
  mem : Memory
  /-- The fault latch `FAULT` (10_state.md R33). -/
  fault : Option FaultRecord
  /-- The parameters, which no command changes (10_state.md R21). -/
  cfg : Config
  /-- The command port: words the host has issued and the core has not accepted, oldest first (30_encoding.md R70, R71). -/
  cmds : List CmdWord
  /-- The response port: the response of the last transaction (30_encoding.md R70). -/
  resp : Option Response
  deriving DecidableEq, Repr

/-- Why the machine has no further step. -/
inductive Fault where
  /-- Raised by `step` on a core whose latch is set: "no command, RESET included, has a step" (60_exceptions.md R205). Safe. -/
  | halted (latch : FaultRecord)
  deriving DecidableEq, Repr

/-- Why a command is given no meaning. -/
inductive Refusal where
  /-- Raised by an arm of `exec` whose instruction has no meaning yet. Safe. No arm raises it. -/
  | notModelled (mnemonic : String)
  /-- `refuse(DecimalADC)`: ADC with D = 1 under `DECIMAL_POLICY = REFUSE` (42_alu_ops.md R140). Safe. -/
  | decimalAdc
  /-- `refuse(DecimalSBC)`: SBC with D = 1 under `DECIMAL_POLICY = REFUSE` (43_alu_ext_ops.md R160). Safe. -/
  | decimalSbc
  deriving DecidableEq, Repr

/-- The outcome of a command or of a step. -/
abbrev Result := Host.Outcome State Fault Refusal

/-- A core as it is created with the parameters `cfg`: the reset state (10_state.md R35; 70_reset_and_hazards.md R230), with
no command issued and none answered (log 1, log 2). -/
def State.create (cfg : Config) : State where
  a := 0x00
  x := 0x00
  y := 0x00
  sp := 0x00
  pc := 0x0000
  p := 0x20
  mem := []
  fault := none
  cfg := cfg
  cmds := []
  resp := none

/-- The core right after reset, its parameters at their defaults. -/
def State.reset : State := State.create Config.default

end Sys2Proof.Machine
end

