-- ==== Sys2Proof/Machine/Ops.lean ====
section
/-! DEFINITION. The named operations over memory, registers, the two ports and the fault latch. -/

namespace Sys2Proof.Machine

/-- The registers of the register file (00_scope.md R1; 30_encoding.md R76). -/
inductive Reg where
  | A
  | X
  | Y
  | SP
  | PC
  | P
  deriving DecidableEq, Repr

/-- What the command port offers the core. -/
inductive Accepted where
  /-- The latch is set: no command is accepted (30_encoding.md R71). -/
  | halted (latch : FaultRecord)
  /-- The host has issued no command. -/
  | idle
  /-- The oldest command word, and the state with that word taken off the port. -/
  | command (cw : CmdWord) (s : State)
  deriving DecidableEq, Repr

/-- What an unlisted address reads as: the reset value of every byte (10_state.md R35; 20_memory.md R61). -/
def unlistedByte : Byte := 0x00

/-- The canonical form: addresses strictly rise, and no entry equals what an unlisted address reads as (log 9). -/
abbrev Memory.wf (m : Memory) : Prop := m.Pairwise (fun c d => c.1 < d.1) ∧ ∀ c ∈ m, c.2 ≠ unlistedByte

/-- The byte at an address. -/
def memGet : Memory → Nat → Byte
  | [], _ => unlistedByte
  | (k, b) :: rest, addr => if k = addr then b else memGet rest addr

/-- An entry in front of a memory, left out when it says nothing. -/
def memCons (addr : Nat) (b : Byte) (m : Memory) : Memory := if b = unlistedByte then m else (addr, b) :: m

/-- Store a byte, keeping the canonical form. -/
def memSet : Memory → Nat → Byte → Memory
  | [], addr, b => memCons addr b []
  | (k, c) :: rest, addr, b =>
    if addr < k then memCons addr b ((k, c) :: rest)
    else if addr = k then memCons addr b rest
    else (k, c) :: memSet rest addr b

/-- `MemRead(addr, 1)` (00_scope.md R14). -/
def readByte (s : State) (addr : Nat) : Byte := memGet s.mem addr

/-- `MemWrite(addr, 1, b)` (00_scope.md R14): only the byte at the address changes (20_memory.md R58). -/
def writeByte (addr : Nat) (b : Byte) (s : State) : State := { s with mem := memSet s.mem addr b }

/-- An address is valid iff it is below `MEM_SIZE` (20_memory.md R52). -/
def validAddr (s : State) (addr : Half) : Bool := decide (u16 addr < s.cfg.memSize)

/-- The hardwired bit U of the status register (10_state.md R28). -/
def hardwired : Byte := 0x20

/-- Read the status register: bit 5 is 1 (10_state.md R28). -/
def readP (s : State) : Byte := s.p ||| hardwired

/-- Write the status register, `P <- v | 0x20` (10_state.md R28). -/
def writeP (v : Byte) (s : State) : State := { s with p := v ||| hardwired }

/-- Read a register, zero-extended to the width of a response (44_register_ops.md R180). -/
def readReg : Reg → State → Half
  | .A, s => zext16 s.a
  | .X, s => zext16 s.x
  | .Y, s => zext16 s.y
  | .SP, s => zext16 s.sp
  | .PC, s => s.pc
  | .P, s => zext16 (readP s)

/-- Write a register with the value `w`: all of it for PC, its low byte for the others (44_register_ops.md R183). -/
def writeReg : Reg → Half → State → State
  | .A, w, s => { s with a := byteOf w }
  | .X, w, s => { s with x := byteOf w }
  | .Y, w, s => { s with y := byteOf w }
  | .SP, w, s => { s with sp := byteOf w }
  | .PC, w, s => { s with pc := w }
  | .P, w, s => writeP (byteOf w) s

/-- `respond(data)` with status OK (00_scope.md R14; 30_encoding.md R77). -/
def respond (data : Half) (s : State) : State := { s with resp := some ⟨.ok, data⟩ }

/-- The number of a fault code (60_exceptions.md R201). -/
def faultWord : FaultCode → Half
  | .boundsViolation => 0x0001
  | .illegalCommand => 0x0002

/-- `raise <Fault>(info)`: TAKING A FAULT. The latch is set, the response is (FAULT, code), nothing else changes
(60_exceptions.md R204). There is no trap entry and no return (60_exceptions.md R209, R210). -/
def raiseFault (code : FaultCode) (info : CmdWord) (s : State) : State :=
  { s with fault := some ⟨code, info⟩, resp := some ⟨.fault, faultWord code⟩ }

/-- `raise BoundsViolation(zext_32(addr))` (41_memory_ops.md R130, R133). -/
def boundsFault (addr : Half) (s : State) : State := raiseFault .boundsViolation (zext32 addr) s

/-- `raise IllegalCommand(CW)` (60_exceptions.md R202). -/
def illegalFault (cw : CmdWord) (s : State) : State := raiseFault .illegalCommand cw s

/-- The reset state in place of the whole state: registers, flags, memory and latch (44_register_ops.md R187, R188). The
parameters and the command port are no state of the core and stay (log 16). -/
def recreate (s : State) : State := { State.create s.cfg with cmds := s.cmds }

/-- The command port: a halted core accepts nothing (30_encoding.md R71; 60_exceptions.md R205), a running one takes the
oldest word issued (20_memory.md R61). -/
def acceptCommand (s : State) : Accepted :=
  match s.fault, s.cmds with
  | some latch, _ => .halted latch
  | none, [] => .idle
  | none, cw :: rest => .command cw { s with cmds := rest }

/-- A core with no command "holds its state indefinitely" (60_exceptions.md R217; log 4). -/
def holdState (s : State) : State := s

/-- The host issues a word so that it is the next one accepted (30_encoding.md R71; log 8). -/
def issueNext (cw : CmdWord) (s : State) : State := { s with cmds := cw :: s.cmds }

end Sys2Proof.Machine
end

