-- ==== Sys2Proof/Machine/Flags.lean ====
section
/-! DEFINITION. The status register's primitives and every flag computation (40_status_ops.md; 42_alu_ops.md R141 to R147;
43_alu_ext_ops.md R161 to R163). -/

namespace Sys2Proof.Machine

/-- The one-bit masks (40_status_ops.md R109). -/
def maskC : Byte := 0x01
/-- See `maskC`. -/
def maskZ : Byte := 0x02
/-- See `maskC`. -/
def maskI : Byte := 0x04
/-- See `maskC`. -/
def maskD : Byte := 0x08
/-- See `maskC`. -/
def maskB : Byte := 0x10
/-- See `maskC`. -/
def maskU : Byte := 0x20
/-- See `maskC`. -/
def maskV : Byte := 0x40
/-- See `maskC`. -/
def maskN : Byte := 0x80

/-- Flag N, bit 7 of P (10_state.md R27). -/
def flagN (s : State) : Bool := (readP s).getLsbD 7
/-- Flag V, bit 6 of P (10_state.md R27). -/
def flagV (s : State) : Bool := (readP s).getLsbD 6
/-- Flag U, bit 5 of P (10_state.md R27, R28). -/
def flagU (s : State) : Bool := (readP s).getLsbD 5
/-- Flag B, bit 4 of P (10_state.md R27). -/
def flagB (s : State) : Bool := (readP s).getLsbD 4
/-- Flag D, bit 3 of P (10_state.md R27). -/
def flagD (s : State) : Bool := (readP s).getLsbD 3
/-- Flag I, bit 2 of P (10_state.md R27). -/
def flagI (s : State) : Bool := (readP s).getLsbD 2
/-- Flag Z, bit 1 of P (10_state.md R27). -/
def flagZ (s : State) : Bool := (readP s).getLsbD 1
/-- Flag C, bit 0 of P (10_state.md R27). -/
def flagC (s : State) : Bool := (readP s).getLsbD 0

/-- `carry()`: the carry as the integer 0 or 1 (40_status_ops.md R101). -/
def carry (s : State) : Nat := (flagC s).toNat

/-- `masked_update(mask, values)` (40_status_ops.md R105). -/
def maskedUpdate (mask values : Byte) (s : State) : State :=
  writeP ((readP s &&& ~~~mask) ||| (values &&& mask)) s

/-- The values of N and Z for the result `r` (40_status_ops.md R102). -/
def nzValues (r : Byte) : Byte :=
  (if r.getLsbD 7 then maskN else 0) ||| (if r = 0x00 then maskZ else 0)

/-- `nz_tail(r)`, the sign/zero tail (40_status_ops.md R102). -/
def nzTail (r : Byte) (s : State) : State := maskedUpdate (maskN ||| maskZ) (nzValues r) s

/-- `P <- (P & ~m) | 0x20` (40_status_ops.md R113). -/
def removeFlags (m : Byte) (s : State) : State := writeP (readP s &&& ~~~m) s

/-- Every flag of the mask is set (40_status_ops.md R110, R111). -/
def containsAll (m : Byte) (s : State) : Bool := readP s &&& m == m

/-- `(u8(a) + c + u8(b)) mod 256` (42_alu_ops.md R142). -/
def addBytes (a : Byte) (c : Nat) (b : Byte) : Byte := BitVec.ofNat 8 (u8 a + c + u8 b)

/-- The carry out as the glossary defines it: the unsigned sum exceeds 255 (42_alu_ops.md R143, FULL). -/
def carryOutFull (a : Byte) (c : Nat) (b : Byte) : Bool := decide (u8 a + c + u8 b ≥ 256)

/-- The carry out by the literal test of the source (42_alu_ops.md R143, LITERAL_COMPARE). -/
def carryOutLiteral (a r : Byte) : Bool := decide (u8 r < u8 a)

/-- ADC's carry out under `ADC_CARRY_RULE` (42_alu_ops.md R143). -/
def adcCarryOut (rule : AdcCarryRule) (a : Byte) (c : Nat) (v : Byte) : Bool :=
  match rule with
  | .full => carryOutFull a c v
  | .literalCompare => carryOutLiteral a (addBytes a c v)

/-- ADC's overflow: two operands of one sign and a result of the other (42_alu_ops.md R144). -/
def overflow (a v r : Byte) : Bool :=
  (a.getLsbD 7 && v.getLsbD 7 && !r.getLsbD 7) || (!a.getLsbD 7 && !v.getLsbD 7 && r.getLsbD 7)

/-- SBC's overflow, with `b = ~V` (43_alu_ext_ops.md R161). -/
def sbcOverflow (a b r : Byte) : Bool := (a.getLsbD 7 == b.getLsbD 7) && (r.getLsbD 7 != a.getLsbD 7)

/-- `(vout << 6) | cout` (42_alu_ops.md R141). -/
def cvValues (cout vout : Bool) : Byte := (if vout then maskV else 0) ||| (if cout then maskC else 0)

/-- `DECIMAL_POLICY = REFUSE` and `P.D = 1` (42_alu_ops.md R140; 43_alu_ext_ops.md R160). -/
def decimalRefused (s : State) : Bool := decide (s.cfg.decimalPolicy = .refuse) && flagD s

/-- The end of ADC and SBC: the sign/zero tail, then C and V only, then A, then the response (42_alu_ops.md R141, R145;
43_alu_ext_ops.md R161). -/
def finishArith (r : Byte) (cout vout : Bool) (s : State) : State :=
  respond 0x0000 { maskedUpdate (maskC ||| maskV) (cvValues cout vout) (nzTail r s) with a := r }

/-- The end of AND, ORA and EOR: the sign/zero tail, then A, then the response (42_alu_ops.md R148; 43_alu_ext_ops.md R166,
R169). -/
def finishLogic (r : Byte) (s : State) : State := respond 0x0000 { nzTail r s with a := r }

end Sys2Proof.Machine
end

