-- ==== Sys2Proof/Machine/Alu.lean ====
section
/-! DEFINITION. ADC and AND (42_alu_ops.md). -/

namespace Sys2Proof.Machine

/-- ADC (42_alu_ops.md R140, R141). -/
def execAdc (v : Byte) (s : State) : Result :=
  if decimalRefused s then .refused .decimalAdc
  else
    let r := addBytes s.a (carry s) v
    .next (finishArith r (adcCarryOut s.cfg.adcCarryRule s.a (carry s) v) (overflow s.a v r) s)

/-- AND (42_alu_ops.md R148). -/
def execAnd (v : Byte) (s : State) : Result := .next (finishLogic (s.a &&& v) s)

end Sys2Proof.Machine
end

