-- ==== Sys2Proof/Machine/AluExt.lean ====
section
/-! DEFINITION. SBC, ORA and EOR (43_alu_ext_ops.md). They decode only when `EXT_ALU_OPS` is true (log 7). -/

namespace Sys2Proof.Machine

/-- SBC (43_alu_ext_ops.md R160, R161). `ADC_CARRY_RULE` does not apply to it (R162). -/
def execSbc (v : Byte) (s : State) : Result :=
  if decimalRefused s then .refused .decimalSbc
  else
    let b := ~~~v
    let r := addBytes s.a (carry s) b
    .next (finishArith r (carryOutFull s.a (carry s) b) (sbcOverflow s.a b r) s)

/-- ORA (43_alu_ext_ops.md R166). -/
def execOra (v : Byte) (s : State) : Result := .next (finishLogic (s.a ||| v) s)

/-- EOR (43_alu_ext_ops.md R169). -/
def execEor (v : Byte) (s : State) : Result := .next (finishLogic (s.a ^^^ v) s)

end Sys2Proof.Machine
end

