-- ==== Sys2Proof/Machine/MemoryCommands.lean ====
section
/-! DEFINITION. MEMREAD and MEMWRITE (41_memory_ops.md). -/

namespace Sys2Proof.Machine

/-- MEMREAD (41_memory_ops.md R130). -/
def execMemread (addr : Half) (s : State) : Result :=
  if validAddr s addr then .next (respond (zext16 (readByte s (u16 addr))) s)
  else .next (boundsFault addr s)

/-- MEMWRITE (41_memory_ops.md R133). -/
def execMemwrite (addr : Half) (d : Byte) (s : State) : Result :=
  if validAddr s addr then .next (respond 0x0000 (writeByte (u16 addr) d s))
  else .next (boundsFault addr s)

end Sys2Proof.Machine
end

