-- ==== Sys2Proof/Machine/Register.lean ====
section
/-! DEFINITION. REGRD, REGWR and RESET (44_register_ops.md). -/

namespace Sys2Proof.Machine

/-- The shared meaning of REGRD (44_register_ops.md R180). -/
def readCommand (r : Reg) (s : State) : Result := .next (respond (readReg r s) s)

/-- The shared meaning of REGWR (44_register_ops.md R183): no sign/zero tail. -/
def writeCommand (r : Reg) (w : Half) (s : State) : Result := .next (respond 0x0000 (writeReg r w s))

/-- REGRD A (44_register_ops.md R180). -/
def execRegrdA (s : State) : Result := readCommand .A s
/-- REGRD X (44_register_ops.md R180). -/
def execRegrdX (s : State) : Result := readCommand .X s
/-- REGRD Y (44_register_ops.md R180). -/
def execRegrdY (s : State) : Result := readCommand .Y s
/-- REGRD SP (44_register_ops.md R180). -/
def execRegrdSP (s : State) : Result := readCommand .SP s
/-- REGRD PC (44_register_ops.md R180). -/
def execRegrdPC (s : State) : Result := readCommand .PC s
/-- REGRD P (44_register_ops.md R180). -/
def execRegrdP (s : State) : Result := readCommand .P s

/-- REGWR A (44_register_ops.md R183). -/
def execRegwrA (v : Byte) (s : State) : Result := writeCommand .A (zext16 v) s
/-- REGWR X (44_register_ops.md R183). -/
def execRegwrX (v : Byte) (s : State) : Result := writeCommand .X (zext16 v) s
/-- REGWR Y (44_register_ops.md R183). -/
def execRegwrY (v : Byte) (s : State) : Result := writeCommand .Y (zext16 v) s
/-- REGWR SP (44_register_ops.md R183). -/
def execRegwrSP (v : Byte) (s : State) : Result := writeCommand .SP (zext16 v) s
/-- REGWR PC (44_register_ops.md R183): all 16 bits (10_state.md R26). -/
def execRegwrPC (w : Half) (s : State) : Result := writeCommand .PC w s
/-- REGWR P (44_register_ops.md R183): bit 5 forced to 1. -/
def execRegwrP (v : Byte) (s : State) : Result := writeCommand .P (zext16 v) s

/-- RESET (44_register_ops.md R187, R188). -/
def execReset (s : State) : Result := .next (respond 0x0000 (recreate s))

end Sys2Proof.Machine
end

