-- ==== Sys2Proof/Machine/Status.lean ====
section
/-! DEFINITION. The status register commands (40_status_ops.md). -/

namespace Sys2Proof.Machine

/-- GETCARRY (40_status_ops.md R100). -/
def execGetcarry (s : State) : Result := .next (respond (bit16 (flagC s)) s)

/-- SETNZ (40_status_ops.md R103). -/
def execSetnz (v : Byte) (s : State) : Result := .next (respond 0x0000 (nzTail v s))

/-- SETMASK (40_status_ops.md R106). -/
def execSetmask (m v : Byte) (s : State) : Result := .next (respond 0x0000 (maskedUpdate m v s))

/-- CONTAINS (40_status_ops.md R110). -/
def execContains (m : Byte) (s : State) : Result := .next (respond (bit16 (containsAll m s)) s)

/-- REMOVE (40_status_ops.md R113). -/
def execRemove (m : Byte) (s : State) : Result := .next (respond 0x0000 (removeFlags m s))

end Sys2Proof.Machine
end

