-- ==== Sys2Proof/Machine/Dispatch.lean ====
section
/-! DEFINITION. The meaning of each command, once accepted and decoded (30_encoding.md R74). -/

namespace Sys2Proof.Machine

/-- One arm per command. The halt of 60_exceptions.md R205 is decided before, by `acceptCommand` (log 7). -/
def exec (i : Instr) (s : State) : Host.Outcome State Fault Refusal :=
  match i with
  | .adc v => Sys2Proof.Machine.execAdc v s
  | .and v => Sys2Proof.Machine.execAnd v s
  | .setnz v => Sys2Proof.Machine.execSetnz v s
  | .setmask m v => Sys2Proof.Machine.execSetmask m v s
  | .contains m => Sys2Proof.Machine.execContains m s
  | .remove m => Sys2Proof.Machine.execRemove m s
  | .getcarry => Sys2Proof.Machine.execGetcarry s
  | .memread addr => Sys2Proof.Machine.execMemread addr s
  | .memwrite addr d => Sys2Proof.Machine.execMemwrite addr d s
  | .regrdA => Sys2Proof.Machine.execRegrdA s
  | .regrdX => Sys2Proof.Machine.execRegrdX s
  | .regrdY => Sys2Proof.Machine.execRegrdY s
  | .regrdSP => Sys2Proof.Machine.execRegrdSP s
  | .regrdPC => Sys2Proof.Machine.execRegrdPC s
  | .regrdP => Sys2Proof.Machine.execRegrdP s
  | .regwrA v => Sys2Proof.Machine.execRegwrA v s
  | .regwrX v => Sys2Proof.Machine.execRegwrX v s
  | .regwrY v => Sys2Proof.Machine.execRegwrY v s
  | .regwrSP v => Sys2Proof.Machine.execRegwrSP v s
  | .regwrPC w => Sys2Proof.Machine.execRegwrPC w s
  | .regwrP v => Sys2Proof.Machine.execRegwrP v s
  | .reset => Sys2Proof.Machine.execReset s
  | .sbc v => Sys2Proof.Machine.execSbc v s
  | .ora v => Sys2Proof.Machine.execOra v s
  | .eor v => Sys2Proof.Machine.execEor v s

end Sys2Proof.Machine
end

