-- ==== Sys2Proof/Machine/Step.lean ====
section
/-! DEFINITION. One step: the next transaction of the command port (30_encoding.md R70). -/

namespace Sys2Proof.Machine

/-- One transaction is one step (00_scope.md R15; 70_reset_and_hazards.md R237). A halted core has no step (60_exceptions.md
R205), an idle one holds its state (60_exceptions.md R217), a reserved word raises IllegalCommand before any state is read
(60_exceptions.md R202). -/
def step (s : State) : Host.Outcome State Fault Refusal :=
  match acceptCommand s with
  | .halted latch => .fault (.halted latch)
  | .idle => .next (holdState s)
  | .command cw s' =>
    match decode s'.cfg cw with
    | .ok i => exec i s'
    | .error _ => .next (illegalFault cw s')

/-- `s` with the word of a table row issued as the next command (log 8, log 12). -/
def State.withFetchWord (s : State) (nbits w : Nat) : State := issueNext (tableWord nbits w) s

end Sys2Proof.Machine
end

