-- ==== Sys2Proof/Machine/Asm.lean ====
section
/-! DEFINITION. The assembly syntax of commands and the pseudo-commands (30_encoding.md R80, R81; log 15). No command reads
any of this: it is how a person writes command words. -/

namespace Sys2Proof.Machine

/-- A piece of a line of assembly. -/
abbrev Text := List Char

/-- The pseudo-commands (30_encoding.md R81). -/
inductive Pseudo where
  | clc
  | sec
  | clv
  | cld
  | sed
  | cli
  | sei
  | ldaImm (v : Byte)
  | new
  deriving DecidableEq, Repr

/-- Their expansions (30_encoding.md R81). -/
def pseudoExpand : Pseudo → List Instr
  | .clc => [.remove 0x01]
  | .sec => [.setmask 0x01 0x01]
  | .clv => [.remove 0x40]
  | .cld => [.remove 0x08]
  | .sed => [.setmask 0x08 0x08]
  | .cli => [.remove 0x04]
  | .sei => [.setmask 0x04 0x04]
  | .ldaImm v => [.regwrA v, .setnz v]
  | .new => [.reset]

/-- The digits, in order. -/
def digitChars : Text := "0123456789ABCDEF".toList

/-- The value of a digit below `base`; a letter digit may be small or capital. -/
def digitValue (base : Nat) (c : Char) : Option Nat :=
  match digitChars.idxOf? c.toUpper with
  | some n => if n < base then some n else none
  | none => none

/-- The value of digits after those already read, `acc`. -/
def digitsValue (base : Nat) : Text → Nat → Option Nat
  | [], acc => some acc
  | c :: cs, acc =>
    match digitValue base c with
    | some n => digitsValue base cs (acc * base + n)
    | none => none

/-- The value of one or more digits. -/
def numeral (base : Nat) : Text → Option Nat
  | [] => none
  | c :: cs => digitsValue base (c :: cs) 0

/-- A number: hexadecimal after a dollar sign, else decimal, a leading minus sign allowed (30_encoding.md R80). -/
def parseNumber : Text → Option Int
  | '$' :: ds => (numeral 16 ds).map Int.ofNat
  | '-' :: ds => (numeral 10 ds).map fun n => -(n : Int)
  | ds => (numeral 10 ds).map Int.ofNat

/-- A byte operand: 0 to 255, or -128 to -1 for the pattern it is the `s8` of (00_scope.md R13; 30_encoding.md R80). -/
def byteOperand (t : Text) : Option Byte :=
  match parseNumber t with
  | some n => if -128 ≤ n ∧ n < 256 then some (BitVec.ofInt 8 n) else none
  | none => none

/-- A 16-bit operand: an address or the value of PC. -/
def halfOperand (t : Text) : Option Half :=
  match parseNumber t with
  | some n => if 0 ≤ n ∧ n < 65536 then some (BitVec.ofInt 16 n) else none
  | none => none

/-- The operand `#v`. -/
def immediateOperand : Text → Option Byte
  | '#' :: t => byteOperand t
  | _ => none

/-- The mask of a flag letter (40_status_ops.md R109). -/
def flagLetter : Text → Option Byte
  | ['N'] => some 0x80
  | ['V'] => some 0x40
  | ['U'] => some 0x20
  | ['B'] => some 0x10
  | ['D'] => some 0x08
  | ['I'] => some 0x04
  | ['Z'] => some 0x02
  | ['C'] => some 0x01
  | _ => none

/-- The pieces of a text between the separators. -/
def splitText (sep : Char) : Text → List Text
  | [] => [[]]
  | c :: cs =>
    if c = sep then [] :: splitText sep cs
    else
      match splitText sep cs with
      | [] => [[c]]
      | w :: ws => (c :: w) :: ws

/-- The OR of a list of flag letters. -/
def flagList : List Text → Option Byte
  | [] => some 0x00
  | t :: ts =>
    match flagLetter t, flagList ts with
    | some m, some n => some (m ||| n)
    | _, _ => none

/-- A flag mask: a number, or flag letters joined by bars (30_encoding.md R80). -/
def maskOperand (t : Text) : Option Byte :=
  match byteOperand t with
  | some m => some m
  | none => flagList (splitText '|' t)

/-- The commands with no operand, and the pseudo-commands that have none. -/
def assemble0 (mnemonic : String) : Option (List Instr) :=
  match mnemonic with
  | "GETCARRY" => some [.getcarry]
  | "RESET" => some [.reset]
  | "CLC" => some (pseudoExpand .clc)
  | "SEC" => some (pseudoExpand .sec)
  | "CLV" => some (pseudoExpand .clv)
  | "CLD" => some (pseudoExpand .cld)
  | "SED" => some (pseudoExpand .sed)
  | "CLI" => some (pseudoExpand .cli)
  | "SEI" => some (pseudoExpand .sei)
  | "NEW" => some (pseudoExpand .new)
  | _ => none

/-- REGRD by the name of its register. -/
def assembleRegrd (r : String) : Option (List Instr) :=
  match r with
  | "A" => some [.regrdA]
  | "X" => some [.regrdX]
  | "Y" => some [.regrdY]
  | "SP" => some [.regrdSP]
  | "PC" => some [.regrdPC]
  | "P" => some [.regrdP]
  | _ => none

/-- REGWR by the name of its register: a 16-bit value for PC, else a byte. -/
def assembleRegwr (r : String) (value : Text) : Option (List Instr) :=
  match r with
  | "A" => (byteOperand value).map fun v => [.regwrA v]
  | "X" => (byteOperand value).map fun v => [.regwrX v]
  | "Y" => (byteOperand value).map fun v => [.regwrY v]
  | "SP" => (byteOperand value).map fun v => [.regwrSP v]
  | "PC" => (halfOperand value).map fun w => [.regwrPC w]
  | "P" => (byteOperand value).map fun v => [.regwrP v]
  | _ => none

/-- The commands with one operand. -/
def assemble1 (mnemonic : String) (o : Text) : Option (List Instr) :=
  match mnemonic with
  | "ADC" => (immediateOperand o).map fun v => [.adc v]
  | "AND" => (immediateOperand o).map fun v => [.and v]
  | "SBC" => (immediateOperand o).map fun v => [.sbc v]
  | "ORA" => (immediateOperand o).map fun v => [.ora v]
  | "EOR" => (immediateOperand o).map fun v => [.eor v]
  | "SETNZ" => (immediateOperand o).map fun v => [.setnz v]
  | "CONTAINS" => (maskOperand o).map fun m => [.contains m]
  | "REMOVE" => (maskOperand o).map fun m => [.remove m]
  | "MEMREAD" => (halfOperand o).map fun addr => [.memread addr]
  | "REGRD" => assembleRegrd (String.ofList o)
  | "LDA" => (immediateOperand o).map fun v => pseudoExpand (.ldaImm v)
  | _ => none

/-- The commands with two operands. -/
def assemble2 (mnemonic : String) (o₁ o₂ : Text) : Option (List Instr) :=
  match mnemonic with
  | "SETMASK" =>
    match maskOperand o₁, byteOperand o₂ with
    | some m, some v => some [.setmask m v]
    | _, _ => none
  | "MEMWRITE" =>
    match halfOperand o₁, byteOperand o₂ with
    | some addr, some d => some [.memwrite addr d]
    | _, _ => none
  | "REGWR" => assembleRegwr (String.ofList o₁) o₂
  | _ => none

/-- The operands of a line: the text after the mnemonic, spaces left out, split at commas. -/
def operandsOf (rest : Text) : List Text :=
  match rest.filter (· ≠ ' ') with
  | [] => []
  | c :: cs => splitText ',' (c :: cs)

/-- The commands a line of assembly stands for, none when it is no line of R80 or R81. -/
def assemble (line : Text) : Option (List Instr) :=
  let mnemonic := String.ofList (line.takeWhile (· ≠ ' '))
  match operandsOf (line.dropWhile (· ≠ ' ')) with
  | [] => assemble0 mnemonic
  | [o] => assemble1 mnemonic o
  | [o₁, o₂] => assemble2 mnemonic o₁ o₂
  | _ => none

end Sys2Proof.Machine
end

