-- ==== Sys2Proof/Safety.lean ====
section
/-! DEFINITION. Runs, safe states and the terms the statements use. -/

namespace Sys2Proof.Machine

/-- `n` steps, stopping at the first that answers no next state. -/
def stepN : Nat → State → Result
  | 0, s => .next s
  | n + 1, s =>
    match step s with
    | .next t => stepN n t
    | .fault f => .fault f
    | .refused r => .refused r

/-- How a run ends (70_reset_and_hazards.md R238). -/
inductive RunEnd where
  /-- The host issued no further command: the final state. -/
  | complete (s : State)
  /-- A command faulted: the halted state. -/
  | faulted (s : State)
  /-- A command was refused (60_exceptions.md R206). -/
  | refused (r : Refusal)
  deriving DecidableEq, Repr

/-- The run in which the host issues the given words one after another (70_reset_and_hazards.md R238; 30_encoding.md R71). -/
def hostRun : List CmdWord → State → RunEnd
  | [], s => if s.fault.isSome then .faulted s else .complete s
  | cw :: rest, s =>
    match step (issueNext cw s) with
    | .next t => hostRun rest t
    | .fault _ => .faulted s
    | .refused r => .refused r

/-- The host issues words after those already waiting. -/
def issueAll (words : List CmdWord) (s : State) : State := { s with cmds := s.cmds ++ words }

/-- Memory is canonical and lists only addresses below `MEM_SIZE` (20_memory.md R50; log 9). -/
abbrev memoryOk (s : State) : Prop := Memory.wf s.mem ∧ ∀ c ∈ s.mem, c.1 < s.cfg.memSize

/-- The stored bit U is 1 (10_state.md R28). -/
abbrev statusOk (s : State) : Prop := s.p.getLsbD 5 = true

/-- The latch and the response port agree (60_exceptions.md R201, R204): without a fault the last response, if any, is OK; with
one it is (FAULT, code), a bounds violation records a 16-bit address not below `MEM_SIZE`, and an illegal command records a
word the decoder rejects. -/
def latchOk (s : State) : Bool :=
  match s.fault, s.resp with
  | none, none => true
  | none, some r => r.status == .ok
  | some _, none => false
  | some ⟨.boundsViolation, info⟩, some r =>
    r == ⟨.fault, 0x0001⟩ && decide (s.cfg.memSize ≤ info.toNat) && decide (info.toNat < 65536)
  | some ⟨.illegalCommand, info⟩, some r => r == ⟨.fault, 0x0002⟩ && (decode? s.cfg info).isNone

/-- The invariant of the core: legal parameters (00_scope.md R8), memory, U and the latch. -/
abbrev Inv (s : State) : Prop := s.cfg.wf ∧ memoryOk s ∧ statusOk s ∧ latchOk s = true

/-- Every field of the reset state (10_state.md R35; 70_reset_and_hazards.md R230). -/
def IsResetState (s : State) : Prop :=
  s.a = 0x00 ∧ s.x = 0x00 ∧ s.y = 0x00 ∧ s.sp = 0x00 ∧ s.pc = 0x0000 ∧ s.p = 0x20 ∧ (∀ addr : Nat, readByte s addr = 0x00) ∧
    s.fault = none

/-- A reserved word, read off 30_encoding.md R78 and the must-be-zero table of R75, on the bits of the word. -/
def ReservedWord (cfg : Config) (cw : CmdWord) : Prop :=
  let op := (cw.extractLsb 31 28).toNat
  let sel := (cw.extractLsb 27 24).toNat
  let m := (cw.extractLsb 23 16).toNat
  let h := (cw.extractLsb 15 8).toNat
  let v := (cw.extractLsb 7 0).toNat
  op = 0x0 ∨
    (cfg.extAluOps = false ∧ (op = 0xD ∨ op = 0xE ∨ op = 0xF)) ∨
    ((op = 0xA ∨ op = 0xB) ∧ 6 ≤ sel) ∨
    (sel ≠ 0 ∧ op ≠ 0xA ∧ op ≠ 0xB) ∨
    (m ≠ 0 ∧ op ≠ 0x4 ∧ op ≠ 0x5 ∧ op ≠ 0x6 ∧ op ≠ 0x9) ∨
    (h ≠ 0 ∧ op ≠ 0x8 ∧ op ≠ 0x9 ∧ ¬ (op = 0xB ∧ sel = 4)) ∨
    (v ≠ 0 ∧ (op = 0x5 ∨ op = 0x6 ∨ op = 0x7 ∨ op = 0xA ∨ op = 0xC))

/-- The byte at `addr` after one command that does not fault, when it was `b` before (20_memory.md R54, R58; 44_register_ops.md
R187). -/
def byteAfter (addr : Half) (i : Instr) (b : Byte) : Byte :=
  match i with
  | .memwrite target d => if target = addr then d else b
  | .reset => 0x00
  | .adc _ | .and _ | .sbc _ | .ora _ | .eor _ => b
  | .setnz _ | .setmask _ _ | .contains _ | .remove _ | .getcarry | .memread _ => b
  | .regrdA | .regrdX | .regrdY | .regrdSP | .regrdPC | .regrdP => b
  | .regwrA _ | .regwrX _ | .regwrY _ | .regwrSP _ | .regwrPC _ | .regwrP _ => b

/-- The byte at `addr` after the commands `is`, when it was `b` before: the byte of the most recent MEMWRITE to it since the
last RESET, 0x00 when only a RESET came since, else `b` (20_memory.md R61). -/
def lastWritten (addr : Half) : List Instr → Byte → Byte
  | [], b => b
  | i :: is, b => lastWritten addr is (byteAfter addr i b)

/-- The commands of the ALU and of the status register (00_scope.md R1, R3). -/
def isAluOrStatus : Instr → Bool
  | .adc _ | .and _ | .sbc _ | .ora _ | .eor _ => true
  | .setnz _ | .setmask _ _ | .contains _ | .remove _ | .getcarry => true
  | .memread _ | .memwrite _ _ | .reset => false
  | .regrdA | .regrdX | .regrdY | .regrdSP | .regrdPC | .regrdP => false
  | .regwrA _ | .regwrX _ | .regwrY _ | .regwrSP _ | .regwrPC _ | .regwrP _ => false

/-- The commands by which the host only observes the core (60_exceptions.md R216). -/
def isObservation : Instr → Bool
  | .contains _ | .getcarry | .memread _ => true
  | .regrdA | .regrdX | .regrdY | .regrdSP | .regrdPC | .regrdP => true
  | .adc _ | .and _ | .sbc _ | .ora _ | .eor _ | .setnz _ | .setmask _ _ | .remove _ => false
  | .memwrite _ _ | .reset => false
  | .regwrA _ | .regwrX _ | .regwrY _ | .regwrSP _ | .regwrPC _ | .regwrP _ => false

/-- The commands that use the sign/zero tail, and the value it is applied to, `t` being the state after: A for the ALU commands,
the operand for SETNZ (40_status_ops.md R103, R104). -/
def tailValue (i : Instr) (t : State) : Option Byte :=
  match i with
  | .adc _ | .and _ | .sbc _ | .ora _ | .eor _ => some t.a
  | .setnz v => some v
  | .setmask _ _ | .contains _ | .remove _ | .getcarry | .memread _ | .memwrite _ _ | .reset => none
  | .regrdA | .regrdX | .regrdY | .regrdSP | .regrdPC | .regrdP => none
  | .regwrA _ | .regwrX _ | .regwrY _ | .regwrSP _ | .regwrPC _ | .regwrP _ => none

/-- The flags a command names, as a mask (10_state.md R29, R32): N, V, Z, C for ADC and SBC; N, Z for the other users of the
tail; the mask of SETMASK and REMOVE; all for REGWR.P and RESET; none for the rest. -/
def namedFlags : Instr → Byte
  | .adc _ | .sbc _ => 0xC3
  | .and _ | .ora _ | .eor _ | .setnz _ => 0x82
  | .setmask m _ | .remove m => m
  | .regwrP _ | .reset => 0xFF
  | .contains _ | .getcarry | .memread _ | .memwrite _ _ => 0x00
  | .regrdA | .regrdX | .regrdY | .regrdSP | .regrdPC | .regrdP => 0x00
  | .regwrA _ | .regwrX _ | .regwrY _ | .regwrSP _ | .regwrPC _ => 0x00

/-- The commands that read D, by the table of 10_state.md R32: REGRD.P and CONTAINS of a mask with D in it, which return or test
it, and ADC and SBC under `DECIMAL_POLICY = REFUSE` (10_state.md R31). -/
def readsDecimal (policy : DecimalPolicy) : Instr → Bool
  | .adc _ | .sbc _ => policy == .refuse
  | .contains m => m.getLsbD 3
  | .regrdP => true
  | .and _ | .ora _ | .eor _ | .setnz _ | .setmask _ _ | .remove _ | .getcarry | .memread _ | .memwrite _ _ | .reset => false
  | .regrdA | .regrdX | .regrdY | .regrdSP | .regrdPC => false
  | .regwrA _ | .regwrX _ | .regwrY _ | .regwrSP _ | .regwrPC _ | .regwrP _ => false

/-- The data of an OK response, by the table of 30_encoding.md R77, `s` being the state before the command. -/
def okData (i : Instr) (s : State) : Half :=
  match i with
  | .contains m => if (s.p ||| 0x20) &&& m = m then 0x0001 else 0x0000
  | .getcarry => if s.p.getLsbD 0 then 0x0001 else 0x0000
  | .memread addr => (readByte s addr.toNat).setWidth 16
  | .regrdA => s.a.setWidth 16
  | .regrdX => s.x.setWidth 16
  | .regrdY => s.y.setWidth 16
  | .regrdSP => s.sp.setWidth 16
  | .regrdPC => s.pc
  | .regrdP => (s.p ||| 0x20).setWidth 16
  | .adc _ | .and _ | .sbc _ | .ora _ | .eor _ | .setnz _ | .setmask _ _ | .remove _ | .memwrite _ _ | .reset => 0x0000
  | .regwrA _ | .regwrX _ | .regwrY _ | .regwrSP _ | .regwrPC _ | .regwrP _ => 0x0000

/-- The flags B, D and I read as before, and U is stored as 1. -/
def KeepsStorageFlags (s t : State) : Prop :=
  flagB t = flagB s ∧ flagD t = flagD s ∧ flagI t = flagI s ∧ statusOk t

/-- The outcome of a logic command with the result `r`: it completes, A is `r`, N and Z follow `r`, every other flag, register,
byte and port is as before, and the response is OK 0x0000 (42_alu_ops.md R148; 43_alu_ext_ops.md R166, R169). -/
def LogicOutcome (i : Instr) (s : State) (r : Byte) : Prop :=
  ∃ t, exec i s = .next t ∧ t.a = r ∧ flagN t = r.getLsbD 7 ∧ flagZ t = decide (r = 0x00) ∧ flagC t = flagC s ∧
    flagV t = flagV s ∧ KeepsStorageFlags s t ∧ t = { s with a := t.a, p := t.p, resp := some ⟨.ok, 0x0000⟩ }

end Sys2Proof.Machine
end

