-- ==== Sys2Proof/Certificates/Slice0/Obligations.lean ====
section
/-! DEFINITION. The statements, one `def Obligations.<Name> : Prop` each, from the numbered rules of spec/. -/

open Sys2Proof Sys2Proof.Machine

/-! Encoding -/

/-- Words written out from 30_encoding.md R74, R75 and the examples of the command rules decode to the commands they stand
for (a sanity statement, one word or more of each family). -/
def Obligations.SampleWordsDecode : Prop :=
  decode? Config.default 0x10000001 = some (.adc 0x01) ∧
    decode? Config.default 0x2000001F = some (.and 0x1F) ∧
    decode? Config.default 0x30000080 = some (.setnz 0x80) ∧
    decode? Config.default 0x404100C3 = some (.setmask 0x41 0xC3) ∧
    decode? Config.default 0x50810000 = some (.contains 0x81) ∧
    decode? Config.default 0x60400000 = some (.remove 0x40) ∧
    decode? Config.default 0x70000000 = some .getcarry ∧
    decode? Config.default 0x80001234 = some (.memread 0x1234) ∧
    decode? Config.default 0x90ABFFFF = some (.memwrite 0xFFFF 0xAB) ∧
    decode? Config.default 0xA5000000 = some .regrdP ∧
    decode? Config.default 0xB400FFFF = some (.regwrPC 0xFFFF) ∧
    decode? Config.default 0xB30000FD = some (.regwrSP 0xFD) ∧
    decode? Config.default 0xC0000000 = some .reset ∧
    decode? Config.default 0xD0000003 = some (.sbc 0x03) ∧
    decode? Config.default 0xE00000F0 = some (.ora 0xF0) ∧
    decode? Config.default 0xF00000FF = some (.eor 0xFF)

/-- Decoding the word of a command that exists in the configuration gives the command back, with every operand. -/
def Obligations.DecodeOfEncode : Prop :=
  ∀ (cfg : Config) (i : Instr), i.wellFormed cfg = true → decode cfg (encode i) = .ok i

/-- A word that decodes is the word of the command it decodes to, and that command exists in the configuration. -/
def Obligations.EncodeOfDecode : Prop :=
  ∀ (cfg : Config) (cw : CmdWord) (i : Instr), decode cfg cw = .ok i → encode i = cw ∧ i.wellFormed cfg = true

/-- The decoder rejects exactly the words that 30_encoding.md R78 reserves. -/
def Obligations.DecoderRejectsExactlyReservedWords : Prop :=
  ∀ (cfg : Config) (cw : CmdWord), (∃ why, decode cfg cw = .error why) ↔ ReservedWord cfg cw

/-- The decoder and spec/opcode_table.json agree, with the extension commands present: each word decodes to a command of the
mnemonic `n` exactly when a row of that mnemonic accepts it. -/
def Obligations.DecoderAgreesWithOpcodeTable : Prop :=
  ∀ (cfg : Config) (cw : CmdWord) (n : String), cfg.extAluOps = true →
    ((∃ i, decode cfg cw = .ok i ∧ i.mnemonic = n) ↔ ∃ r ∈ opcodeTable, r.mnemonic = n ∧ r.accepts cw = true)

/-- 30_encoding.md R78: a reserved word raises IllegalCommand with the word as its info and changes nothing but the latch (the
word is taken off the command port and the response port answers FAULT 0x0002). The all-zero word is reserved. -/
def Obligations.ReservedWordRaisesIllegalCommand : Prop :=
  (∀ (s : State) (cw : CmdWord) (rest : List CmdWord), s.fault = none → s.cmds = cw :: rest → ReservedWord s.cfg cw →
    step s = .next { s with cmds := rest, fault := some ⟨.illegalCommand, cw⟩, resp := some ⟨.fault, 0x0002⟩ }) ∧
  (∀ cfg, ReservedWord cfg 0x00000000)

/-- 00_scope.md R11: with EXT_ALU_OPS true, its default, the words of SBC, ORA and EOR decode to them; with false, each raises
IllegalCommand. -/
def Obligations.ExtensionWordsFollowParameter : Prop :=
  Config.default.extAluOps = true ∧
  (∀ (cfg : Config) (v : Byte), cfg.extAluOps = true →
    decode cfg (0xD00000#24 ++ v) = .ok (.sbc v) ∧ decode cfg (0xE00000#24 ++ v) = .ok (.ora v) ∧
      decode cfg (0xF00000#24 ++ v) = .ok (.eor v)) ∧
  (∀ (s : State) (rest : List CmdWord) (v : Byte) (cw : CmdWord), s.cfg.extAluOps = false → s.fault = none →
    (cw = 0xD00000#24 ++ v ∨ cw = 0xE00000#24 ++ v ∨ cw = 0xF00000#24 ++ v) → s.cmds = cw :: rest →
    step s = .next { s with cmds := rest, fault := some ⟨.illegalCommand, cw⟩, resp := some ⟨.fault, 0x0002⟩ })

/-- 30_encoding.md R81: the words of the pseudo-commands. -/
def Obligations.PseudoCommandWords : Prop :=
  (pseudoExpand .clc).map encode = [0x60010000] ∧ (pseudoExpand .sec).map encode = [0x40010001] ∧
    (pseudoExpand .clv).map encode = [0x60400000] ∧ (pseudoExpand .cld).map encode = [0x60080000] ∧
    (pseudoExpand .sed).map encode = [0x40080008] ∧ (pseudoExpand .cli).map encode = [0x60040000] ∧
    (pseudoExpand .sei).map encode = [0x40040004] ∧
    (∀ v : Byte, (pseudoExpand (.ldaImm v)).map encode = [0xB00000#24 ++ v, 0x300000#24 ++ v]) ∧
    (pseudoExpand .new).map encode = [0xC0000000]

/-! Steps and runs -/

/-- A step runs the decoded command: on a core not halted, with the word off the port. -/
def Obligations.StepRunsDecodedCommand : Prop :=
  ∀ (s : State) (cw : CmdWord) (rest : List CmdWord) (i : Instr), s.fault = none → s.cmds = cw :: rest →
    decode s.cfg cw = .ok i → step s = exec i { s with cmds := rest }

/-- 60_exceptions.md R205: once the latch is set no command has a step, whatever the port holds, and no number of steps leads to
a state in which the latch is cleared. -/
def Obligations.HaltedCoreHasNoStep : Prop :=
  ∀ (s : State) (latch : FaultRecord) (n : Nat), s.fault = some latch → stepN (n + 1) s = .fault (.halted latch)

/-- A run that reaches a next state was not halted at any state before it: only its last command can have faulted. -/
def Obligations.OnlyTheLastCommandCanFault : Prop :=
  ∀ (n : Nat) (s t : State), stepN (n + 1) s = .next t → ∀ k ≤ n, ∃ u, stepN k s = .next u ∧ u.fault = none

/-- A core that is not halted and has no command holds its state for any number of steps. That such a step answers `next` is
the model's choice (log 4). -/
def Obligations.IdleCoreHoldsItsState : Prop :=
  ∀ (n : Nat) (s : State), s.fault = none → s.cmds = [] → stepN n s = .next s

/-- Each step of an issued command: a core not halted, with a word on its command port, whose step answers a next state, takes
exactly that word and gives one response, whose status is FAULT exactly when the latch is set. The ports are the model's (log 1,
log 2); the step of a core with no word issued (log 4) takes none and gives none, and is `IdleCoreHoldsItsState`'s. -/
def Obligations.EveryCommandIsAnsweredOnce : Prop :=
  ∀ (s t : State) (cw : CmdWord) (rest : List CmdWord), s.fault = none → s.cmds = cw :: rest → step s = .next t →
    t.cmds = rest ∧ ∃ r, t.resp = some r ∧ (r.status = .fault ↔ t.fault ≠ none)

/-- 60_exceptions.md R201, R204: a faulting command changes no register, flag or memory byte; it sets the latch and answers
(FAULT, code); and there are two faults only, BoundsViolation of a MEMREAD or MEMWRITE not below MEM_SIZE with the address as
info, and IllegalCommand of a reserved word with the word as info. -/
def Obligations.FaultIsPrecise : Prop :=
  ∀ (s t : State) (f : FaultRecord), s.fault = none → step s = .next t → t.fault = some f →
    ∃ cw rest, s.cmds = cw :: rest ∧
      ((∃ addr : Half, (decode s.cfg cw = .ok (.memread addr) ∨ ∃ d, decode s.cfg cw = .ok (.memwrite addr d)) ∧
          s.cfg.memSize ≤ addr.toNat ∧ f = ⟨.boundsViolation, addr.setWidth 32⟩ ∧
          t = { s with cmds := rest, fault := some f, resp := some ⟨.fault, 0x0001⟩ }) ∨
        (ReservedWord s.cfg cw ∧ f = ⟨.illegalCommand, cw⟩ ∧
          t = { s with cmds := rest, fault := some f, resp := some ⟨.fault, 0x0002⟩ }))

/-- 20_memory.md R53, 60_exceptions.md R203: an access not below MEM_SIZE is not performed, keeps memory and every register, and
halts the core; with MEM_SIZE = 65536 no address is invalid. -/
def Obligations.OutOfRangeAccessHalts : Prop :=
  (∀ (s : State) (addr : Half) (i : Instr), s.cfg.memSize ≤ addr.toNat → (i = .memread addr ∨ ∃ d, i = .memwrite addr d) →
    ∃ t, exec i s = .next t ∧
      t = { s with fault := some ⟨.boundsViolation, addr.setWidth 32⟩, resp := some ⟨.fault, 0x0001⟩ } ∧
      step t = .fault (.halted ⟨.boundsViolation, addr.setWidth 32⟩)) ∧
  (∀ (s : State) (addr : Half) (d : Byte), s.cfg.memSize = 65536 →
    (∃ t, exec (.memread addr) s = .next t ∧ t.fault = s.fault) ∧ ∃ t, exec (.memwrite addr d) s = .next t ∧ t.fault = s.fault)

/-- The run of a host that issues words one at a time (70_reset_and_hazards.md R238) completes in `t` exactly when the core,
given all the words at once, takes one step a word to `t` and is not halted there. It rests on the command port as a list (log 1)
and, for a RESET among the words, on its keeping the words still waiting (log 16). -/
def Obligations.CompleteRunIsStepsOfIssuedWords : Prop :=
  ∀ (words : List CmdWord) (s t : State), s.cmds = [] →
    (hostRun words s = .complete t ↔ stepN words.length (issueAll words s) = .next t ∧ t.fault = none)

/-! Reset -/

/-- 70_reset_and_hazards.md R230, 44_register_ops.md R187, R188: a core is in the reset state when it is created, with any
parameters, and after every RESET, which answers OK 0x0000; a halted core has no step for RESET. -/
def Obligations.CreationAndResetGiveResetState : Prop :=
  encode .reset = 0xC0000000 ∧
  (∀ cfg, IsResetState (State.create cfg)) ∧ IsResetState State.reset ∧
  (∀ s, ∃ t, exec .reset s = .next t ∧ IsResetState t ∧ t.resp = some ⟨.ok, 0x0000⟩) ∧
  (∀ (s : State) (latch : FaultRecord) (rest : List CmdWord), s.fault = some latch → s.cmds = 0xC0000000 :: rest →
    step s = .fault (.halted latch))

/-- RESET completes in the created state and keeps nothing of the state before it (44_register_ops.md R188). That it keeps the
words not yet accepted is the model's choice (log 16). -/
def Obligations.ResetReplacesWholeState : Prop :=
  (∀ s, exec .reset s = .next { State.create s.cfg with cmds := s.cmds, resp := some ⟨.ok, 0x0000⟩ }) ∧
  (∀ s s' : State, s.cfg = s'.cfg → s.cmds = s'.cmds → exec .reset s = exec .reset s')

/-! Status register commands -/

/-- 40_status_ops.md R103: SETNZ. -/
def Obligations.SetnzWritesSignAndZero : Prop :=
  ∀ (v : Byte) (s : State), encode (.setnz v) = 0x300000#24 ++ v ∧
    ∃ t, exec (.setnz v) s = .next t ∧ flagN t = v.getLsbD 7 ∧ flagZ t = decide (v = 0x00) ∧ flagC t = flagC s ∧
      flagV t = flagV s ∧ KeepsStorageFlags s t ∧ ¬ (flagN t = true ∧ flagZ t = true) ∧
      t = { s with p := t.p, resp := some ⟨.ok, 0x0000⟩ }

/-- 40_status_ops.md R105, R106, R107: SETMASK, bit by bit. -/
def Obligations.SetmaskWritesBitsOfMask : Prop :=
  ∀ (m v : Byte) (s : State), encode (.setmask m v) = 0x40#8 ++ m ++ 0x00#8 ++ v ∧
    ∃ t, exec (.setmask m v) s = .next t ∧
      (∀ k < 8, t.p.getLsbD k = if k = 5 then true else if m.getLsbD k then v.getLsbD k else s.p.getLsbD k) ∧
      t = { s with p := t.p, resp := some ⟨.ok, 0x0000⟩ }

/-- 40_status_ops.md R113, R114: REMOVE, bit by bit, and the same state change as SETMASK M, 0. -/
def Obligations.RemoveClearsBitsOfMask : Prop :=
  ∀ (m : Byte) (s : State), encode (.remove m) = 0x60#8 ++ m ++ 0x0000#16 ∧
    (∃ t, exec (.remove m) s = .next t ∧
      (∀ k < 8, t.p.getLsbD k = if k = 5 then true else if m.getLsbD k then false else s.p.getLsbD k) ∧
      t = { s with p := t.p, resp := some ⟨.ok, 0x0000⟩ }) ∧
    exec (.remove m) s = exec (.setmask m 0x00) s

/-- 40_status_ops.md R110, R111, R112: CONTAINS answers 1 exactly when every flag of the mask is set, U counting as set; so 1 for
the empty mask and for U; and changes no state. -/
def Obligations.ContainsTestsEveryFlag : Prop :=
  ∀ (m : Byte) (s : State), encode (.contains m) = 0x50#8 ++ m ++ 0x0000#16 ∧
    (∃ d : Half, exec (.contains m) s = .next { s with resp := some ⟨.ok, d⟩ } ∧ (d = 0x0000 ∨ d = 0x0001) ∧
      (d = 0x0001 ↔ ∀ k < 8, m.getLsbD k = true → (k = 5 ∨ s.p.getLsbD k = true))) ∧
    exec (.contains 0x00) s = .next { s with resp := some ⟨.ok, 0x0001⟩ } ∧
    exec (.contains 0x20) s = .next { s with resp := some ⟨.ok, 0x0001⟩ }

/-- 40_status_ops.md R100: GETCARRY answers the carry as 0 or 1 and changes no state. -/
def Obligations.GetcarryAnswersCarry : Prop :=
  encode .getcarry = 0x70000000 ∧
  ∀ s : State, exec .getcarry s = .next { s with resp := some ⟨.ok, if s.p.getLsbD 0 then 0x0001 else 0x0000⟩ }

/-- REGWR.P, V is the same state change as SETMASK $FF, V (the corner cases of 44_register_ops.md R183 and 40_status_ops.md
R106). -/
def Obligations.SetmaskOfAllIsWriteOfP : Prop :=
  ∀ (v : Byte) (s : State), exec (.setmask 0xFF v) s = exec (.regwrP v) s

/-! Memory commands -/

/-- 41_memory_ops.md R130, R131: MEMREAD. -/
def Obligations.MemreadAnswersTheByte : Prop :=
  ∀ (addr : Half) (s : State), encode (.memread addr) = 0x8000#16 ++ addr ∧
    (addr.toNat < s.cfg.memSize →
      exec (.memread addr) s = .next { s with resp := some ⟨.ok, (readByte s addr.toNat).setWidth 16⟩ }) ∧
    (s.cfg.memSize ≤ addr.toNat →
      exec (.memread addr) s =
        .next { s with fault := some ⟨.boundsViolation, addr.setWidth 32⟩, resp := some ⟨.fault, 0x0001⟩ })

/-- 41_memory_ops.md R133, R134: MEMWRITE, from a memory in canonical form, stores one byte, every other byte reading as before,
and never extends memory. The canonical form is the model's (log 9). -/
def Obligations.MemwriteStoresOneByte : Prop :=
  ∀ (addr : Half) (d : Byte) (s : State), encode (.memwrite addr d) = 0x90#8 ++ d ++ addr ∧
    (addr.toNat < s.cfg.memSize → memoryOk s →
      ∃ t, exec (.memwrite addr d) s = .next t ∧
        (∀ a : Nat, readByte t a = if a = addr.toNat then d else readByte s a) ∧ memoryOk t ∧
        t = { s with mem := t.mem, resp := some ⟨.ok, 0x0000⟩ }) ∧
    (s.cfg.memSize ≤ addr.toNat →
      exec (.memwrite addr d) s =
        .next { s with fault := some ⟨.boundsViolation, addr.setWidth 32⟩, resp := some ⟨.fault, 0x0001⟩ })

/-- 20_memory.md R61: after any commands that complete, MEMREAD answers the byte most recently written to the address since the
last RESET; where there was none since the core was created, 0x00; and, from any state, what the byte was before. The commands
stand in the model's command port (log 1), whose waiting words a RESET among them keeps (log 16); memory is canonical (log 9). -/
def Obligations.MemoryIsSequential : Prop :=
  (∀ (is : List Instr) (rest : List CmdWord) (s t : State) (addr : Half), (∀ i ∈ is, i.wellFormed s.cfg = true) → memoryOk s →
    s.cmds = is.map encode ++ rest → stepN is.length s = .next t → t.fault = none → addr.toNat < s.cfg.memSize →
    exec (.memread addr) t =
      .next { t with resp := some ⟨.ok, (lastWritten addr is (readByte s addr.toNat)).setWidth 16⟩ }) ∧
  (∀ (is : List Instr) (cfg : Config) (t : State) (addr : Half), (∀ i ∈ is, i.wellFormed cfg = true) →
    stepN is.length (issueAll (is.map encode) (State.create cfg)) = .next t → t.fault = none → addr.toNat < cfg.memSize →
    exec (.memread addr) t = .next { t with resp := some ⟨.ok, (lastWritten addr is 0x00).setWidth 16⟩ })

/-- Two memories in canonical form that read alike at every address are equal (log 9: the canonical form is the model's). -/
def Obligations.CanonicalMemoryIsUnique : Prop :=
  ∀ s t : State, memoryOk s → memoryOk t → (∀ a : Nat, readByte s a = readByte t a) → s.mem = t.mem

/-! Arithmetic and logic commands -/

/-- 42_alu_ops.md R141, R146: ADC. Unless it is refused it completes; A is the sum modulo 256, N and Z follow A, C and V follow
the rules of R143 (under the configured rule) and R144, every other flag, register, byte and port is as before. -/
def Obligations.AdcAddsWithCarry : Prop :=
  ∀ (v : Byte) (s : State), encode (.adc v) = 0x100000#24 ++ v ∧
    (s.cfg.decimalPolicy = .refuse ∧ flagD s = true → exec (.adc v) s = .refused .decimalAdc) ∧
    (¬ (s.cfg.decimalPolicy = .refuse ∧ flagD s = true) →
      ∃ t, exec (.adc v) s = .next t ∧
        t.a.toNat = (s.a.toNat + (if flagC s then 1 else 0) + v.toNat) % 256 ∧
        flagN t = t.a.getLsbD 7 ∧ flagZ t = decide (t.a = 0x00) ∧
        (s.cfg.adcCarryRule = .full → flagC t = decide (256 ≤ s.a.toNat + (if flagC s then 1 else 0) + v.toNat)) ∧
        (s.cfg.adcCarryRule = .literalCompare → flagC t = decide (t.a.toNat < s.a.toNat)) ∧
        flagV t = ((s.a.getLsbD 7 && v.getLsbD 7 && !t.a.getLsbD 7) || (!s.a.getLsbD 7 && !v.getLsbD 7 && t.a.getLsbD 7)) ∧
        KeepsStorageFlags s t ∧ t = { s with a := t.a, p := t.p, resp := some ⟨.ok, 0x0000⟩ })

/-- 42_alu_ops.md R144: ADC's V is set exactly when two operands of one sign give a result of the other, which is exactly when the
signed sum with the carry lies outside -128..127, under either carry rule. -/
def Obligations.AdcOverflowIsSignedOverflow : Prop :=
  ∀ (v : Byte) (s t : State), exec (.adc v) s = .next t →
    (flagV t = true ↔ (s8 s.a < 0 ∧ s8 v < 0 ∧ 0 ≤ s8 t.a) ∨ (0 ≤ s8 s.a ∧ 0 ≤ s8 v ∧ s8 t.a < 0)) ∧
    (flagV t = true ↔
      s8 s.a + (if flagC s then 1 else 0) + s8 v < -128 ∨ 127 < s8 s.a + (if flagC s then 1 else 0) + s8 v)

/-- 42_alu_ops.md R143: ADC's C under FULL, the default, is the sum of at least 256, equally the 8-bit-only form; under
LITERAL_COMPARE it is the literal comparison; and the two rules differ exactly when the carry-in is 1 and the operand is 0xFF,
where the result is A. -/
def Obligations.AdcCarryRulesCompared : Prop :=
  Config.default.adcCarryRule = .full ∧
  (∀ (v : Byte) (s t : State), exec (.adc v) s = .next t →
    (s.cfg.adcCarryRule = .full →
      (flagC t = true ↔ 256 ≤ s.a.toNat + (if flagC s then 1 else 0) + v.toNat) ∧
      (flagC t = true ↔ t.a.toNat < s.a.toNat ∨ (flagC s = true ∧ t.a.toNat = s.a.toNat))) ∧
    (s.cfg.adcCarryRule = .literalCompare → (flagC t = true ↔ t.a.toNat < s.a.toNat))) ∧
  (∀ (v : Byte) (s t u : State), exec (.adc v) { s with cfg.adcCarryRule := .full } = .next t →
    exec (.adc v) { s with cfg.adcCarryRule := .literalCompare } = .next u →
    (flagC t ≠ flagC u ↔ flagC s = true ∧ v = 0xFF) ∧
    (flagC s = true ∧ v = 0xFF → t.a = s.a ∧ flagC t = true ∧ flagC u = false))

/-- 42_alu_ops.md R140, 43_alu_ext_ops.md R160: under REFUSE with D = 1, ADC and SBC are refused, at a step too; under IGNORE,
the default, ADC and SBC, and always AND, ORA and EOR, do the same whatever D holds; and so does every command but REGRD.P, a
CONTAINS that tests D, and ADC and SBC under REFUSE: each completes, and with D inverted before gives the same response and the
same state, D being inverted after as well unless the command writes D. -/
def Obligations.DecimalPolicyDecidesWhetherDIsRead : Prop :=
  Config.default.decimalPolicy = .ignore ∧
  (∀ (v : Byte) (s : State) (rest : List CmdWord), s.cfg.decimalPolicy = .refuse → flagD s = true →
    exec (.adc v) s = .refused .decimalAdc ∧ exec (.sbc v) s = .refused .decimalSbc ∧
    (s.fault = none → s.cmds = (0x100000#24 ++ v) :: rest → step s = .refused .decimalAdc) ∧
    (s.fault = none → s.cfg.extAluOps = true → s.cmds = (0xD00000#24 ++ v) :: rest → step s = .refused .decimalSbc)) ∧
  (∀ (v : Byte) (s : State) (i : Instr),
    (s.cfg.decimalPolicy = .ignore ∧ (i = .adc v ∨ i = .sbc v)) ∨ i = .and v ∨ i = .ora v ∨ i = .eor v →
    ∃ t, exec i s = .next t ∧ exec i { s with p := s.p ^^^ 0x08 } = .next { t with p := t.p ^^^ 0x08 }) ∧
  (∀ (s : State) (i : Instr), readsDecimal s.cfg.decimalPolicy i = false →
    ∃ t, exec i s = .next t ∧
      exec i { s with p := s.p ^^^ 0x08 } =
        .next { t with p := if (namedFlags i).getLsbD 3 then t.p else t.p ^^^ 0x08 })

/-- 42_alu_ops.md R148, R149: AND. -/
def Obligations.AndResult : Prop :=
  ∀ (v : Byte) (s : State), encode (.and v) = 0x200000#24 ++ v ∧ LogicOutcome (.and v) s (s.a &&& v)

/-- 43_alu_ext_ops.md R166: ORA. -/
def Obligations.OraResult : Prop :=
  ∀ (v : Byte) (s : State), encode (.ora v) = 0xE00000#24 ++ v ∧ LogicOutcome (.ora v) s (s.a ||| v)

/-- 43_alu_ext_ops.md R169: EOR. -/
def Obligations.EorResult : Prop :=
  ∀ (v : Byte) (s : State), encode (.eor v) = 0xF00000#24 ++ v ∧ LogicOutcome (.eor v) s (s.a ^^^ v)

/-- 43_alu_ext_ops.md R161, R162, R163: SBC. Unless it is refused it completes; A is A - V - (1 - C) modulo 256, equally
A + C + ~V; C is set exactly when there is no borrow, equally in 8-bit terms, whatever ADC_CARRY_RULE is; V exactly when the signed
difference lies outside -128..127, equally by the sign rule; every other flag, register, byte and port is as before. -/
def Obligations.SbcSubtractsWithBorrow : Prop :=
  ∀ (v : Byte) (s : State), encode (.sbc v) = 0xD00000#24 ++ v ∧
    (s.cfg.decimalPolicy = .refuse ∧ flagD s = true → exec (.sbc v) s = .refused .decimalSbc) ∧
    (¬ (s.cfg.decimalPolicy = .refuse ∧ flagD s = true) →
      ∃ t, exec (.sbc v) s = .next t ∧
        (t.a.toNat : Int) = ((s.a.toNat : Int) - v.toNat - (if flagC s then 0 else 1)) % 256 ∧
        t.a.toNat = (s.a.toNat + (if flagC s then 1 else 0) + (~~~v).toNat) % 256 ∧
        flagN t = t.a.getLsbD 7 ∧ flagZ t = decide (t.a = 0x00) ∧
        (flagC t = true ↔ v.toNat + (if flagC s then 0 else 1) ≤ s.a.toNat) ∧
        (flagC t = true ↔ t.a.toNat < s.a.toNat ∨ (flagC s = true ∧ t.a.toNat = s.a.toNat)) ∧
        (flagV t = true ↔
          s8 s.a - s8 v - (if flagC s then 0 else 1) < -128 ∨ 127 < s8 s.a - s8 v - (if flagC s then 0 else 1)) ∧
        (flagV t = true ↔ s.a.getLsbD 7 = (~~~v).getLsbD 7 ∧ t.a.getLsbD 7 ≠ s.a.getLsbD 7) ∧
        KeepsStorageFlags s t ∧ t = { s with a := t.a, p := t.p, resp := some ⟨.ok, 0x0000⟩ })

/-- 43_alu_ext_ops.md R164, 70_reset_and_hazards.md R234: two SBCs, the first with C = 1, subtract 16-bit numbers byte by byte, the
last C telling that there was no borrow; two ADCs under FULL, the first with C = 0, add them, the last C telling the carry. -/
def Obligations.ChainsCarryBetweenBytes : Prop :=
  (∀ (lo hi vlo vhi : Byte) (s t u : State), flagC s = true → exec (.sbc vlo) { s with a := lo } = .next t →
    exec (.sbc vhi) { t with a := hi } = .next u →
    ((256 * u.a.toNat + t.a.toNat : Nat) : Int) =
        ((256 * hi.toNat + lo.toNat : Nat) - (256 * vhi.toNat + vlo.toNat : Nat) : Int) % 65536 ∧
      (flagC u = true ↔ 256 * vhi.toNat + vlo.toNat ≤ 256 * hi.toNat + lo.toNat)) ∧
  (∀ (lo hi vlo vhi : Byte) (s t u : State), s.cfg.adcCarryRule = .full → flagC s = false →
    exec (.adc vlo) { s with a := lo } = .next t → exec (.adc vhi) { t with a := hi } = .next u →
    256 * u.a.toNat + t.a.toNat = ((256 * hi.toNat + lo.toNat) + (256 * vhi.toNat + vlo.toNat)) % 65536 ∧
      (flagC u = true ↔ 65536 ≤ (256 * hi.toNat + lo.toNat) + (256 * vhi.toNat + vlo.toNat)))

/-- 40_status_ops.md R104: after every command that uses the sign/zero tail, Z is set exactly when the affected value is 0 and N is
its bit 7. -/
def Obligations.SignZeroTailFollowsResult : Prop :=
  ∀ (i : Instr) (s t : State) (r : Byte), exec i s = .next t → tailValue i t = some r →
    (flagZ t = true ↔ r = 0x00) ∧ (flagN t = true ↔ r.getLsbD 7 = true)

/-- 60_exceptions.md R200: every command but MEMREAD and MEMWRITE completes without a fault on every operand and in every state not
halted, or is an ADC or SBC refused under DECIMAL_POLICY = REFUSE with D = 1. -/
def Obligations.ArithmeticAndRegisterCommandsNeverFault : Prop :=
  ∀ (i : Instr) (s : State), (∀ addr, i ≠ .memread addr) → (∀ addr d, i ≠ .memwrite addr d) → s.fault = none →
    (∃ t, exec i s = .next t ∧ t.fault = none) ∨
      (s.cfg.decimalPolicy = .refuse ∧ flagD s = true ∧
        ((∃ v, i = .adc v ∧ exec i s = .refused .decimalAdc) ∨ ∃ v, i = .sbc v ∧ exec i s = .refused .decimalSbc))

/-! Register commands -/

/-- 44_register_ops.md R180: REGRD of each register, and IllegalCommand for SEL 6 to 15. -/
def Obligations.RegrdAnswersTheRegister : Prop :=
  (encode .regrdA = 0xA0000000 ∧ encode .regrdX = 0xA1000000 ∧ encode .regrdY = 0xA2000000 ∧ encode .regrdSP = 0xA3000000 ∧
    encode .regrdPC = 0xA4000000 ∧ encode .regrdP = 0xA5000000) ∧
  ∀ s : State,
    exec .regrdA s = .next { s with resp := some ⟨.ok, s.a.setWidth 16⟩ } ∧
    exec .regrdX s = .next { s with resp := some ⟨.ok, s.x.setWidth 16⟩ } ∧
    exec .regrdY s = .next { s with resp := some ⟨.ok, s.y.setWidth 16⟩ } ∧
    exec .regrdSP s = .next { s with resp := some ⟨.ok, s.sp.setWidth 16⟩ } ∧
    exec .regrdPC s = .next { s with resp := some ⟨.ok, s.pc⟩ } ∧
    exec .regrdP s = .next { s with resp := some ⟨.ok, (s.p ||| 0x20).setWidth 16⟩ } ∧
    ∀ (rest : List CmdWord) (sel : BitVec 4) (m h v : Byte), s.fault = none → 6 ≤ sel.toNat →
      s.cmds = (0xA#4 ++ sel ++ m ++ h ++ v) :: rest →
      step s = .next { s with cmds := rest, fault := some ⟨.illegalCommand, 0xA#4 ++ sel ++ m ++ h ++ v⟩,
                              resp := some ⟨.fault, 0x0002⟩ }

/-- 44_register_ops.md R183: REGWR of each register, N and Z kept but by REGWR.P; and IllegalCommand for SEL 6 to 15, or for H
not 0 with an 8-bit register. -/
def Obligations.RegwrWritesTheRegister : Prop :=
  ∀ (v : Byte) (w : Half) (s : State),
    (encode (.regwrA v) = 0xB00000#24 ++ v ∧ encode (.regwrX v) = 0xB10000#24 ++ v ∧ encode (.regwrY v) = 0xB20000#24 ++ v ∧
      encode (.regwrSP v) = 0xB30000#24 ++ v ∧ encode (.regwrPC w) = 0xB400#16 ++ w ∧ encode (.regwrP v) = 0xB50000#24 ++ v) ∧
    exec (.regwrA v) s = .next { s with a := v, resp := some ⟨.ok, 0x0000⟩ } ∧
    exec (.regwrX v) s = .next { s with x := v, resp := some ⟨.ok, 0x0000⟩ } ∧
    exec (.regwrY v) s = .next { s with y := v, resp := some ⟨.ok, 0x0000⟩ } ∧
    exec (.regwrSP v) s = .next { s with sp := v, resp := some ⟨.ok, 0x0000⟩ } ∧
    exec (.regwrPC w) s = .next { s with pc := w, resp := some ⟨.ok, 0x0000⟩ } ∧
    exec (.regwrP v) s = .next { s with p := v ||| 0x20, resp := some ⟨.ok, 0x0000⟩ } ∧
    ∀ (rest : List CmdWord) (sel : BitVec 4) (m h : Byte), s.fault = none → 6 ≤ sel.toNat ∨ (sel ≠ 4 ∧ h ≠ 0x00) →
      s.cmds = (0xB#4 ++ sel ++ m ++ h ++ v) :: rest →
      step s = .next { s with cmds := rest, fault := some ⟨.illegalCommand, 0xB#4 ++ sel ++ m ++ h ++ v⟩,
                              resp := some ⟨.fault, 0x0002⟩ }

/-! Rules of the whole machine -/

/-- 10_state.md R28: every command that writes P leaves bit 5 at 1; REGRD.P answers it as 1 and CONTAINS U answers 1; and no
command can tell what is stored there, for with it set before, the same state results but for the bit as stored. -/
def Obligations.UnusedBitIsHardwiredToOne : Prop :=
  (∀ (i : Instr) (s t : State), exec i s = .next t → t.p = s.p ∨ t.p.getLsbD 5 = true) ∧
  (∀ s : State, (∃ d : Half, exec .regrdP s = .next { s with resp := some ⟨.ok, d⟩ } ∧ d.getLsbD 5 = true) ∧
    exec (.contains 0x20) s = .next { s with resp := some ⟨.ok, 0x0001⟩ }) ∧
  (∀ (i : Instr) (s t : State), exec i s = .next t →
    exec i { s with p := s.p ||| 0x20 } = .next { t with p := t.p ||| 0x20 })

/-- 10_state.md R29: a flag that a command does not name keeps its value. -/
def Obligations.UnnamedFlagsKeepTheirValue : Prop :=
  ∀ (i : Instr) (s t : State), exec i s = .next t → ∀ k < 8, (namedFlags i).getLsbD k = false →
    (readP t).getLsbD k = (readP s).getLsbD k

/-- 10_state.md R26: at any step PC changes only by REGWR.PC, which writes all 16 bits, and by RESET. -/
def Obligations.PcChangesOnlyByRegwrAndReset : Prop :=
  ∀ s t : State, step s = .next t → t.pc ≠ s.pc →
    ∃ cw rest, s.cmds = cw :: rest ∧ ((∃ w, decode s.cfg cw = .ok (.regwrPC w) ∧ t.pc = w) ∨ decode s.cfg cw = .ok .reset)

/-- At any step A changes only by the five ALU commands, REGWR.A and RESET; X, Y and SP only by their REGWR and RESET. -/
def Obligations.RegistersChangeOnlyByTheirWriters : Prop :=
  ∀ s t : State, step s = .next t →
    (t.a ≠ s.a → ∃ cw rest, s.cmds = cw :: rest ∧ ∃ i, decode s.cfg cw = .ok i ∧
      ((∃ v, i = .adc v ∨ i = .and v ∨ i = .sbc v ∨ i = .ora v ∨ i = .eor v ∨ i = .regwrA v) ∨ i = .reset)) ∧
    (t.x ≠ s.x → ∃ cw rest, s.cmds = cw :: rest ∧ ∃ i, decode s.cfg cw = .ok i ∧ (i = .regwrX t.x ∨ i = .reset)) ∧
    (t.y ≠ s.y → ∃ cw rest, s.cmds = cw :: rest ∧ ∃ i, decode s.cfg cw = .ok i ∧ (i = .regwrY t.y ∨ i = .reset)) ∧
    (t.sp ≠ s.sp → ∃ cw rest, s.cmds = cw :: rest ∧ ∃ i, decode s.cfg cw = .ok i ∧ (i = .regwrSP t.sp ∨ i = .reset))

/-- At any step from a canonical memory, a byte changes only by a MEMWRITE to its valid address, which leaves it the data byte, and
by RESET, which leaves it 0x00. -/
def Obligations.MemoryChangesOnlyByMemwriteAndReset : Prop :=
  ∀ (s t : State) (a : Nat), memoryOk s → step s = .next t → readByte t a ≠ readByte s a →
    ∃ cw rest, s.cmds = cw :: rest ∧
      ((∃ addr : Half, decode s.cfg cw = .ok (.memwrite addr (readByte t a)) ∧ addr.toNat = a ∧ a < s.cfg.memSize) ∨
        (decode s.cfg cw = .ok .reset ∧ readByte t a = 0x00))

/-- The ALU and status commands read none of X, Y, SP, PC and memory: with other values there they do the same to all the rest and
leave those values. -/
def Obligations.AluAndStatusReadNoOtherRegisterOrMemory : Prop :=
  ∀ (i : Instr) (s t : State) (x y sp : Byte) (pc : Half) (m : Memory), isAluOrStatus i = true → exec i s = .next t →
    exec i { s with x := x, y := y, sp := sp, pc := pc, mem := m } =
      .next { t with x := x, y := y, sp := sp, pc := pc, mem := m }

/-- FRAME of the ALU and status commands: X, Y, SP, PC, every byte of memory, the latch, the parameters and the command port are as
before; and A too but for the ALU commands. -/
def Obligations.FrameOfAluAndStatusCommands : Prop :=
  ∀ (i : Instr) (s t : State), isAluOrStatus i = true → exec i s = .next t →
    t.x = s.x ∧ t.y = s.y ∧ t.sp = s.sp ∧ t.pc = s.pc ∧ (∀ a : Nat, readByte t a = readByte s a) ∧ t.fault = s.fault ∧
      t.cfg = s.cfg ∧ t.cmds = s.cmds ∧
      ((∀ v, i ≠ .adc v ∧ i ≠ .and v ∧ i ≠ .sbc v ∧ i ≠ .ora v ∧ i ≠ .eor v) → t.a = s.a)

/-- FRAME of the observations (CONTAINS, GETCARRY, MEMREAD and REGRD, those that do not fault): only the response port changes, and
the same command repeated at once changes nothing at all, so it answers the same. -/
def Obligations.ObservationsHaveNoSideEffect : Prop :=
  ∀ (i : Instr) (s t : State), isObservation i = true → s.fault = none → exec i s = .next t → t.fault = none →
    t = { s with resp := t.resp } ∧ (∀ a : Nat, readByte t a = readByte s a) ∧ exec i t = .next t

/-- 30_encoding.md R77: the response of every command accepted by a core not halted: OK and the data of the table, or FAULT and the
fault code. -/
def Obligations.ResponseFollowsTheTable : Prop :=
  ∀ (s t : State) (cw : CmdWord) (rest : List CmdWord), s.fault = none → s.cmds = cw :: rest → step s = .next t →
    (t.fault = none → ∃ i, decode s.cfg cw = .ok i ∧ t.resp = some ⟨.ok, okData i s⟩) ∧
    (∀ f, t.fault = some f →
      (f.code = .boundsViolation → t.resp = some ⟨.fault, 0x0001⟩) ∧ (f.code = .illegalCommand → t.resp = some ⟨.fault, 0x0002⟩))

/-- The parameters, MEM_SIZE among them, never change while the core exists. -/
def Obligations.ParametersNeverChange : Prop :=
  ∀ (n : Nat) (s t : State), stepN n s = .next t → t.cfg = s.cfg

/-- The invariant holds of every core as created with legal parameters, and at reset. -/
def Obligations.CreatedCoreMeetsInvariant : Prop :=
  (∀ cfg : Config, cfg.wf → Inv (State.create cfg)) ∧ Inv State.reset

/-- Every step from a state that meets the invariant leads to one that meets it: legal parameters, canonical memory below MEM_SIZE,
bit U stored as 1, and the latch and the response port in agreement, a latched bounds violation recording an address not below
MEM_SIZE and a latched illegal command a word the decoder rejects. -/
def Obligations.StepKeepsInvariant : Prop :=
  ∀ s t : State, Inv s → step s = .next t → Inv t

/-- 20_memory.md R61, as a host sees it: after a complete run of commands issued one at a time from the core's creation, MEMREAD of
a valid address answers the byte of the most recent MEMWRITE to it since the last RESET, or 0x00 if there was none. -/
def Obligations.MemreadReturnsLastWriteOfRun : Prop :=
  ∀ (is : List Instr) (cfg : Config) (t : State) (addr : Half), (∀ i ∈ is, i.wellFormed cfg = true) →
    hostRun (is.map encode) (State.create cfg) = .complete t → addr.toNat < cfg.memSize →
    exec (.memread addr) t = .next { t with resp := some ⟨.ok, (lastWritten addr is 0x00).setWidth 16⟩ }
end

