-- ==== Sys2Proof/Laws/State.lean ====
section
/-! SUPPORT. One lemma per field per update of State, true by rfl, so that no later proof unfolds an update. -/

namespace Sys2Proof.Machine

section
variable (s : State)

@[simp] theorem respond_a (d : Half) : (respond d s).a = s.a := rfl
@[simp] theorem respond_x (d : Half) : (respond d s).x = s.x := rfl
@[simp] theorem respond_y (d : Half) : (respond d s).y = s.y := rfl
@[simp] theorem respond_sp (d : Half) : (respond d s).sp = s.sp := rfl
@[simp] theorem respond_pc (d : Half) : (respond d s).pc = s.pc := rfl
@[simp] theorem respond_p (d : Half) : (respond d s).p = s.p := rfl
@[simp] theorem respond_mem (d : Half) : (respond d s).mem = s.mem := rfl
@[simp] theorem respond_fault (d : Half) : (respond d s).fault = s.fault := rfl
@[simp] theorem respond_cfg (d : Half) : (respond d s).cfg = s.cfg := rfl
@[simp] theorem respond_cmds (d : Half) : (respond d s).cmds = s.cmds := rfl
@[simp] theorem respond_resp (d : Half) : (respond d s).resp = some ⟨.ok, d⟩ := rfl

@[simp] theorem raiseFault_a (code : FaultCode) (info : CmdWord) : (raiseFault code info s).a = s.a := rfl
@[simp] theorem raiseFault_x (code : FaultCode) (info : CmdWord) : (raiseFault code info s).x = s.x := rfl
@[simp] theorem raiseFault_y (code : FaultCode) (info : CmdWord) : (raiseFault code info s).y = s.y := rfl
@[simp] theorem raiseFault_sp (code : FaultCode) (info : CmdWord) : (raiseFault code info s).sp = s.sp := rfl
@[simp] theorem raiseFault_pc (code : FaultCode) (info : CmdWord) : (raiseFault code info s).pc = s.pc := rfl
@[simp] theorem raiseFault_p (code : FaultCode) (info : CmdWord) : (raiseFault code info s).p = s.p := rfl
@[simp] theorem raiseFault_mem (code : FaultCode) (info : CmdWord) : (raiseFault code info s).mem = s.mem := rfl
@[simp] theorem raiseFault_fault (code : FaultCode) (info : CmdWord) : (raiseFault code info s).fault = some ⟨code, info⟩ := rfl
@[simp] theorem raiseFault_cfg (code : FaultCode) (info : CmdWord) : (raiseFault code info s).cfg = s.cfg := rfl
@[simp] theorem raiseFault_cmds (code : FaultCode) (info : CmdWord) : (raiseFault code info s).cmds = s.cmds := rfl
@[simp] theorem raiseFault_resp (code : FaultCode) (info : CmdWord) : (raiseFault code info s).resp = some ⟨.fault, faultWord code⟩ := rfl

@[simp] theorem boundsFault_a (addr : Half) : (boundsFault addr s).a = s.a := rfl
@[simp] theorem boundsFault_x (addr : Half) : (boundsFault addr s).x = s.x := rfl
@[simp] theorem boundsFault_y (addr : Half) : (boundsFault addr s).y = s.y := rfl
@[simp] theorem boundsFault_sp (addr : Half) : (boundsFault addr s).sp = s.sp := rfl
@[simp] theorem boundsFault_pc (addr : Half) : (boundsFault addr s).pc = s.pc := rfl
@[simp] theorem boundsFault_p (addr : Half) : (boundsFault addr s).p = s.p := rfl
@[simp] theorem boundsFault_mem (addr : Half) : (boundsFault addr s).mem = s.mem := rfl
@[simp] theorem boundsFault_fault (addr : Half) : (boundsFault addr s).fault = some ⟨.boundsViolation, zext32 addr⟩ := rfl
@[simp] theorem boundsFault_cfg (addr : Half) : (boundsFault addr s).cfg = s.cfg := rfl
@[simp] theorem boundsFault_cmds (addr : Half) : (boundsFault addr s).cmds = s.cmds := rfl
@[simp] theorem boundsFault_resp (addr : Half) : (boundsFault addr s).resp = some ⟨.fault, 0x0001⟩ := rfl

@[simp] theorem illegalFault_a (cw : CmdWord) : (illegalFault cw s).a = s.a := rfl
@[simp] theorem illegalFault_x (cw : CmdWord) : (illegalFault cw s).x = s.x := rfl
@[simp] theorem illegalFault_y (cw : CmdWord) : (illegalFault cw s).y = s.y := rfl
@[simp] theorem illegalFault_sp (cw : CmdWord) : (illegalFault cw s).sp = s.sp := rfl
@[simp] theorem illegalFault_pc (cw : CmdWord) : (illegalFault cw s).pc = s.pc := rfl
@[simp] theorem illegalFault_p (cw : CmdWord) : (illegalFault cw s).p = s.p := rfl
@[simp] theorem illegalFault_mem (cw : CmdWord) : (illegalFault cw s).mem = s.mem := rfl
@[simp] theorem illegalFault_fault (cw : CmdWord) : (illegalFault cw s).fault = some ⟨.illegalCommand, cw⟩ := rfl
@[simp] theorem illegalFault_cfg (cw : CmdWord) : (illegalFault cw s).cfg = s.cfg := rfl
@[simp] theorem illegalFault_cmds (cw : CmdWord) : (illegalFault cw s).cmds = s.cmds := rfl
@[simp] theorem illegalFault_resp (cw : CmdWord) : (illegalFault cw s).resp = some ⟨.fault, 0x0002⟩ := rfl

@[simp] theorem writeP_a (v : Byte) : (writeP v s).a = s.a := rfl
@[simp] theorem writeP_x (v : Byte) : (writeP v s).x = s.x := rfl
@[simp] theorem writeP_y (v : Byte) : (writeP v s).y = s.y := rfl
@[simp] theorem writeP_sp (v : Byte) : (writeP v s).sp = s.sp := rfl
@[simp] theorem writeP_pc (v : Byte) : (writeP v s).pc = s.pc := rfl
@[simp] theorem writeP_p (v : Byte) : (writeP v s).p = v ||| hardwired := rfl
@[simp] theorem writeP_mem (v : Byte) : (writeP v s).mem = s.mem := rfl
@[simp] theorem writeP_fault (v : Byte) : (writeP v s).fault = s.fault := rfl
@[simp] theorem writeP_cfg (v : Byte) : (writeP v s).cfg = s.cfg := rfl
@[simp] theorem writeP_cmds (v : Byte) : (writeP v s).cmds = s.cmds := rfl
@[simp] theorem writeP_resp (v : Byte) : (writeP v s).resp = s.resp := rfl

@[simp] theorem writeByte_a (addr : Nat) (b : Byte) : (writeByte addr b s).a = s.a := rfl
@[simp] theorem writeByte_x (addr : Nat) (b : Byte) : (writeByte addr b s).x = s.x := rfl
@[simp] theorem writeByte_y (addr : Nat) (b : Byte) : (writeByte addr b s).y = s.y := rfl
@[simp] theorem writeByte_sp (addr : Nat) (b : Byte) : (writeByte addr b s).sp = s.sp := rfl
@[simp] theorem writeByte_pc (addr : Nat) (b : Byte) : (writeByte addr b s).pc = s.pc := rfl
@[simp] theorem writeByte_p (addr : Nat) (b : Byte) : (writeByte addr b s).p = s.p := rfl
@[simp] theorem writeByte_mem (addr : Nat) (b : Byte) : (writeByte addr b s).mem = memSet s.mem addr b := rfl
@[simp] theorem writeByte_fault (addr : Nat) (b : Byte) : (writeByte addr b s).fault = s.fault := rfl
@[simp] theorem writeByte_cfg (addr : Nat) (b : Byte) : (writeByte addr b s).cfg = s.cfg := rfl
@[simp] theorem writeByte_cmds (addr : Nat) (b : Byte) : (writeByte addr b s).cmds = s.cmds := rfl
@[simp] theorem writeByte_resp (addr : Nat) (b : Byte) : (writeByte addr b s).resp = s.resp := rfl

@[simp] theorem maskedUpdate_a (m v : Byte) : (maskedUpdate m v s).a = s.a := rfl
@[simp] theorem maskedUpdate_x (m v : Byte) : (maskedUpdate m v s).x = s.x := rfl
@[simp] theorem maskedUpdate_y (m v : Byte) : (maskedUpdate m v s).y = s.y := rfl
@[simp] theorem maskedUpdate_sp (m v : Byte) : (maskedUpdate m v s).sp = s.sp := rfl
@[simp] theorem maskedUpdate_pc (m v : Byte) : (maskedUpdate m v s).pc = s.pc := rfl
@[simp] theorem maskedUpdate_p (m v : Byte) : (maskedUpdate m v s).p = ((readP s &&& ~~~m) ||| (v &&& m)) ||| hardwired := rfl
@[simp] theorem maskedUpdate_mem (m v : Byte) : (maskedUpdate m v s).mem = s.mem := rfl
@[simp] theorem maskedUpdate_fault (m v : Byte) : (maskedUpdate m v s).fault = s.fault := rfl
@[simp] theorem maskedUpdate_cfg (m v : Byte) : (maskedUpdate m v s).cfg = s.cfg := rfl
@[simp] theorem maskedUpdate_cmds (m v : Byte) : (maskedUpdate m v s).cmds = s.cmds := rfl
@[simp] theorem maskedUpdate_resp (m v : Byte) : (maskedUpdate m v s).resp = s.resp := rfl

@[simp] theorem nzTail_a (r : Byte) : (nzTail r s).a = s.a := rfl
@[simp] theorem nzTail_x (r : Byte) : (nzTail r s).x = s.x := rfl
@[simp] theorem nzTail_y (r : Byte) : (nzTail r s).y = s.y := rfl
@[simp] theorem nzTail_sp (r : Byte) : (nzTail r s).sp = s.sp := rfl
@[simp] theorem nzTail_pc (r : Byte) : (nzTail r s).pc = s.pc := rfl
@[simp] theorem nzTail_p (r : Byte) : (nzTail r s).p = ((readP s &&& ~~~(maskN ||| maskZ)) ||| (nzValues r &&& (maskN ||| maskZ))) ||| hardwired := rfl
@[simp] theorem nzTail_mem (r : Byte) : (nzTail r s).mem = s.mem := rfl
@[simp] theorem nzTail_fault (r : Byte) : (nzTail r s).fault = s.fault := rfl
@[simp] theorem nzTail_cfg (r : Byte) : (nzTail r s).cfg = s.cfg := rfl
@[simp] theorem nzTail_cmds (r : Byte) : (nzTail r s).cmds = s.cmds := rfl
@[simp] theorem nzTail_resp (r : Byte) : (nzTail r s).resp = s.resp := rfl

@[simp] theorem removeFlags_a (m : Byte) : (removeFlags m s).a = s.a := rfl
@[simp] theorem removeFlags_x (m : Byte) : (removeFlags m s).x = s.x := rfl
@[simp] theorem removeFlags_y (m : Byte) : (removeFlags m s).y = s.y := rfl
@[simp] theorem removeFlags_sp (m : Byte) : (removeFlags m s).sp = s.sp := rfl
@[simp] theorem removeFlags_pc (m : Byte) : (removeFlags m s).pc = s.pc := rfl
@[simp] theorem removeFlags_p (m : Byte) : (removeFlags m s).p = (readP s &&& ~~~m) ||| hardwired := rfl
@[simp] theorem removeFlags_mem (m : Byte) : (removeFlags m s).mem = s.mem := rfl
@[simp] theorem removeFlags_fault (m : Byte) : (removeFlags m s).fault = s.fault := rfl
@[simp] theorem removeFlags_cfg (m : Byte) : (removeFlags m s).cfg = s.cfg := rfl
@[simp] theorem removeFlags_cmds (m : Byte) : (removeFlags m s).cmds = s.cmds := rfl
@[simp] theorem removeFlags_resp (m : Byte) : (removeFlags m s).resp = s.resp := rfl

@[simp] theorem finishArith_a (r : Byte) (c v : Bool) : (finishArith r c v s).a = r := rfl
@[simp] theorem finishArith_x (r : Byte) (c v : Bool) : (finishArith r c v s).x = s.x := rfl
@[simp] theorem finishArith_y (r : Byte) (c v : Bool) : (finishArith r c v s).y = s.y := rfl
@[simp] theorem finishArith_sp (r : Byte) (c v : Bool) : (finishArith r c v s).sp = s.sp := rfl
@[simp] theorem finishArith_pc (r : Byte) (c v : Bool) : (finishArith r c v s).pc = s.pc := rfl
@[simp] theorem finishArith_p (r : Byte) (c v : Bool) : (finishArith r c v s).p = (maskedUpdate (maskC ||| maskV) (cvValues c v) (nzTail r s)).p := rfl
@[simp] theorem finishArith_mem (r : Byte) (c v : Bool) : (finishArith r c v s).mem = s.mem := rfl
@[simp] theorem finishArith_fault (r : Byte) (c v : Bool) : (finishArith r c v s).fault = s.fault := rfl
@[simp] theorem finishArith_cfg (r : Byte) (c v : Bool) : (finishArith r c v s).cfg = s.cfg := rfl
@[simp] theorem finishArith_cmds (r : Byte) (c v : Bool) : (finishArith r c v s).cmds = s.cmds := rfl
@[simp] theorem finishArith_resp (r : Byte) (c v : Bool) : (finishArith r c v s).resp = some ⟨.ok, 0x0000⟩ := rfl

@[simp] theorem finishLogic_a (r : Byte) : (finishLogic r s).a = r := rfl
@[simp] theorem finishLogic_x (r : Byte) : (finishLogic r s).x = s.x := rfl
@[simp] theorem finishLogic_y (r : Byte) : (finishLogic r s).y = s.y := rfl
@[simp] theorem finishLogic_sp (r : Byte) : (finishLogic r s).sp = s.sp := rfl
@[simp] theorem finishLogic_pc (r : Byte) : (finishLogic r s).pc = s.pc := rfl
@[simp] theorem finishLogic_p (r : Byte) : (finishLogic r s).p = (nzTail r s).p := rfl
@[simp] theorem finishLogic_mem (r : Byte) : (finishLogic r s).mem = s.mem := rfl
@[simp] theorem finishLogic_fault (r : Byte) : (finishLogic r s).fault = s.fault := rfl
@[simp] theorem finishLogic_cfg (r : Byte) : (finishLogic r s).cfg = s.cfg := rfl
@[simp] theorem finishLogic_cmds (r : Byte) : (finishLogic r s).cmds = s.cmds := rfl
@[simp] theorem finishLogic_resp (r : Byte) : (finishLogic r s).resp = some ⟨.ok, 0x0000⟩ := rfl

@[simp] theorem recreate_a : (recreate s).a = 0x00 := rfl
@[simp] theorem recreate_x : (recreate s).x = 0x00 := rfl
@[simp] theorem recreate_y : (recreate s).y = 0x00 := rfl
@[simp] theorem recreate_sp : (recreate s).sp = 0x00 := rfl
@[simp] theorem recreate_pc : (recreate s).pc = 0x0000 := rfl
@[simp] theorem recreate_p : (recreate s).p = 0x20 := rfl
@[simp] theorem recreate_mem : (recreate s).mem = [] := rfl
@[simp] theorem recreate_fault : (recreate s).fault = none := rfl
@[simp] theorem recreate_cfg : (recreate s).cfg = s.cfg := rfl
@[simp] theorem recreate_cmds : (recreate s).cmds = s.cmds := rfl
@[simp] theorem recreate_resp : (recreate s).resp = none := rfl

@[simp] theorem issueNext_a (cw : CmdWord) : (issueNext cw s).a = s.a := rfl
@[simp] theorem issueNext_x (cw : CmdWord) : (issueNext cw s).x = s.x := rfl
@[simp] theorem issueNext_y (cw : CmdWord) : (issueNext cw s).y = s.y := rfl
@[simp] theorem issueNext_sp (cw : CmdWord) : (issueNext cw s).sp = s.sp := rfl
@[simp] theorem issueNext_pc (cw : CmdWord) : (issueNext cw s).pc = s.pc := rfl
@[simp] theorem issueNext_p (cw : CmdWord) : (issueNext cw s).p = s.p := rfl
@[simp] theorem issueNext_mem (cw : CmdWord) : (issueNext cw s).mem = s.mem := rfl
@[simp] theorem issueNext_fault (cw : CmdWord) : (issueNext cw s).fault = s.fault := rfl
@[simp] theorem issueNext_cfg (cw : CmdWord) : (issueNext cw s).cfg = s.cfg := rfl
@[simp] theorem issueNext_cmds (cw : CmdWord) : (issueNext cw s).cmds = cw :: s.cmds := rfl
@[simp] theorem issueNext_resp (cw : CmdWord) : (issueNext cw s).resp = s.resp := rfl

@[simp] theorem issueAll_a (ws : List CmdWord) : (issueAll ws s).a = s.a := rfl
@[simp] theorem issueAll_x (ws : List CmdWord) : (issueAll ws s).x = s.x := rfl
@[simp] theorem issueAll_y (ws : List CmdWord) : (issueAll ws s).y = s.y := rfl
@[simp] theorem issueAll_sp (ws : List CmdWord) : (issueAll ws s).sp = s.sp := rfl
@[simp] theorem issueAll_pc (ws : List CmdWord) : (issueAll ws s).pc = s.pc := rfl
@[simp] theorem issueAll_p (ws : List CmdWord) : (issueAll ws s).p = s.p := rfl
@[simp] theorem issueAll_mem (ws : List CmdWord) : (issueAll ws s).mem = s.mem := rfl
@[simp] theorem issueAll_fault (ws : List CmdWord) : (issueAll ws s).fault = s.fault := rfl
@[simp] theorem issueAll_cfg (ws : List CmdWord) : (issueAll ws s).cfg = s.cfg := rfl
@[simp] theorem issueAll_cmds (ws : List CmdWord) : (issueAll ws s).cmds = s.cmds ++ ws := rfl
@[simp] theorem issueAll_resp (ws : List CmdWord) : (issueAll ws s).resp = s.resp := rfl

end

section
variable (r : Reg) (w : Half) (s : State)

@[simp] theorem writeReg_a : (writeReg r w s).a = if r = .A then byteOf w else s.a := by
  cases r <;> rfl
@[simp] theorem writeReg_x : (writeReg r w s).x = if r = .X then byteOf w else s.x := by
  cases r <;> rfl
@[simp] theorem writeReg_y : (writeReg r w s).y = if r = .Y then byteOf w else s.y := by
  cases r <;> rfl
@[simp] theorem writeReg_sp : (writeReg r w s).sp = if r = .SP then byteOf w else s.sp := by
  cases r <;> rfl
@[simp] theorem writeReg_pc : (writeReg r w s).pc = if r = .PC then w else s.pc := by
  cases r <;> rfl
@[simp] theorem writeReg_p : (writeReg r w s).p = if r = .P then byteOf w ||| hardwired else s.p := by
  cases r <;> rfl
@[simp] theorem writeReg_mem : (writeReg r w s).mem = s.mem := by
  cases r <;> rfl
@[simp] theorem writeReg_fault : (writeReg r w s).fault = s.fault := by
  cases r <;> rfl
@[simp] theorem writeReg_cfg : (writeReg r w s).cfg = s.cfg := by
  cases r <;> rfl
@[simp] theorem writeReg_cmds : (writeReg r w s).cmds = s.cmds := by
  cases r <;> rfl
@[simp] theorem writeReg_resp : (writeReg r w s).resp = s.resp := by
  cases r <;> rfl

end

section
variable (cfg : Config)

@[simp] theorem create_a : (State.create cfg).a = 0x00 := rfl
@[simp] theorem create_x : (State.create cfg).x = 0x00 := rfl
@[simp] theorem create_y : (State.create cfg).y = 0x00 := rfl
@[simp] theorem create_sp : (State.create cfg).sp = 0x00 := rfl
@[simp] theorem create_pc : (State.create cfg).pc = 0x0000 := rfl
@[simp] theorem create_p : (State.create cfg).p = 0x20 := rfl
@[simp] theorem create_mem : (State.create cfg).mem = [] := rfl
@[simp] theorem create_fault : (State.create cfg).fault = none := rfl
@[simp] theorem create_cfg : (State.create cfg).cfg = cfg := rfl
@[simp] theorem create_cmds : (State.create cfg).cmds = [] := rfl
@[simp] theorem create_resp : (State.create cfg).resp = none := rfl

end

/-- Two states with equal fields are equal. -/
theorem state_eq {s t : State} (ha : s.a = t.a) (hx : s.x = t.x) (hy : s.y = t.y) (hsp : s.sp = t.sp) (hpc : s.pc = t.pc)
    (hp : s.p = t.p) (hm : s.mem = t.mem) (hf : s.fault = t.fault) (hc : s.cfg = t.cfg) (hq : s.cmds = t.cmds)
    (hr : s.resp = t.resp) : s = t := by
  cases s; cases t; simp_all

end Sys2Proof.Machine
end

