-- ==== Sys2Proof/Laws/Memory.lean ====
section
/-! SUPPORT. The laws of memory: read after write, the canonical form kept, and equal bytes are equal memories. -/

namespace Sys2Proof.Machine

@[simp] theorem memGet_nil (addr : Nat) : memGet [] addr = unlistedByte := rfl

theorem memGet_cons (k : Nat) (c : Byte) (m : Memory) (addr : Nat) :
    memGet ((k, c) :: m) addr = if k = addr then c else memGet m addr := rfl

theorem memSet_cons (k : Nat) (c : Byte) (m : Memory) (addr : Nat) (b : Byte) :
    memSet ((k, c) :: m) addr b =
      if addr < k then memCons addr b ((k, c) :: m)
      else if addr = k then memCons addr b m else (k, c) :: memSet m addr b := rfl

/-- Below every address listed, memory reads as unlisted. -/
theorem memGet_of_lt {m : Memory} {addr : Nat} (h : ∀ c ∈ m, addr < c.1) : memGet m addr = unlistedByte := by
  induction m with
  | nil => rfl
  | cons c m ih =>
    obtain ⟨k, b⟩ := c
    have hk : addr < k := h (k, b) (by simp)
    rw [memGet_cons, if_neg (by omega)]
    exact ih fun c hc => h c (by simp [hc])

/-- Reading where `memCons` puts its entry, below all others. -/
theorem memGet_memCons {m : Memory} {addr : Nat} (b : Byte) (a : Nat) (h : ∀ c ∈ m, addr < c.1) :
    memGet (memCons addr b m) a = if a = addr then b else memGet m a := by
  unfold memCons
  by_cases hb : b = unlistedByte
  · rw [if_pos hb]
    split
    · next e => subst e; rw [memGet_of_lt h, hb]
    · rfl
  · rw [if_neg hb, memGet_cons]
    by_cases e : a = addr
    · simp [e]
    · rw [if_neg (Ne.symm e), if_neg e]

/-- The canonical form says that the addresses after the first lie above it. -/
theorem wf_cons {k : Nat} {c : Byte} {m : Memory} :
    Memory.wf ((k, c) :: m) ↔ (∀ d ∈ m, k < d.1) ∧ c ≠ unlistedByte ∧ Memory.wf m := by
  simp only [Memory.wf, List.pairwise_cons, List.mem_cons, forall_eq_or_imp]
  tauto

/-- READ AFTER WRITE: the byte written at its address, every other byte as before (20_memory.md R58). -/
theorem memGet_memSet {m : Memory} (h : m.wf) (addr : Nat) (b : Byte) (a : Nat) :
    memGet (memSet m addr b) a = if a = addr then b else memGet m a := by
  induction m with
  | nil => exact memGet_memCons b a (by simp)
  | cons c m ih =>
    obtain ⟨k, c⟩ := c
    obtain ⟨hk, -, hm⟩ := wf_cons.1 h
    rw [memSet_cons]
    split
    · next hlt =>
      apply memGet_memCons
      rintro d hd
      rcases List.mem_cons.1 hd with rfl | hd
      · exact hlt
      · exact hlt.trans (hk d hd)
    · split
      · next e =>
        subst e
        rw [memGet_memCons b a hk, memGet_cons]
        by_cases e : a = addr
        · simp [e]
        · rw [if_neg e, if_neg e, if_neg (Ne.symm e)]
      · next hn =>
        rw [memGet_cons, memGet_cons, ih hm]
        by_cases e : k = a
        · subst e; simp [Ne.symm hn]
        · simp [e]

/-- What `memSet` lists is what was listed, and the entry written. -/
theorem mem_memSet {m : Memory} {addr : Nat} {b : Byte} {c : Host.Cell} (h : c ∈ memSet m addr b) :
    c ∈ m ∨ c = (addr, b) := by
  have hcons : ∀ {m : Memory}, c ∈ memCons addr b m → c ∈ m ∨ c = (addr, b) := by
    intro m h
    unfold memCons at h
    split at h
    · exact .inl h
    · exact (List.mem_cons.1 h).symm
  induction m with
  | nil => exact hcons h
  | cons d m ih =>
    obtain ⟨k, d⟩ := d
    rw [memSet_cons] at h
    split at h
    · exact hcons h
    · split at h
      · exact (hcons h).imp_left (List.mem_cons_of_mem _)
      · rcases List.mem_cons.1 h with rfl | h
        · exact .inl (by simp)
        · exact (ih h).imp_left (List.mem_cons_of_mem _)

theorem memCons_wf {m : Memory} {addr : Nat} {b : Byte} (hm : m.wf) (h : ∀ c ∈ m, addr < c.1) : (memCons addr b m).wf := by
  unfold memCons
  split
  · exact hm
  · next hb => exact wf_cons.2 ⟨h, hb, hm⟩

/-- A write keeps the canonical form. -/
theorem memSet_wf {m : Memory} (h : m.wf) (addr : Nat) (b : Byte) : (memSet m addr b).wf := by
  induction m with
  | nil => exact memCons_wf h (by simp)
  | cons c m ih =>
    obtain ⟨k, c⟩ := c
    obtain ⟨hk, hc, hm⟩ := wf_cons.1 h
    rw [memSet_cons]
    split
    · next hlt =>
      refine memCons_wf h ?_
      rintro d hd
      rcases List.mem_cons.1 hd with rfl | hd
      · exact hlt
      · exact hlt.trans (hk d hd)
    · split
      · next e => subst e; exact memCons_wf hm hk
      · next hn hne =>
        refine wf_cons.2 ⟨?_, hc, ih hm⟩
        intro d hd
        rcases mem_memSet hd with hd | rfl
        · exact hk d hd
        · simp only; omega

/-- Equal bytes at every address are equal memories: the canonical form is unique (log 9). -/
theorem memory_ext {m n : Memory} (hm : m.wf) (hn : n.wf) (h : ∀ a, memGet m a = memGet n a) : m = n := by
  induction m generalizing n with
  | nil =>
    cases n with
    | nil => rfl
    | cons d n =>
      obtain ⟨k, d⟩ := d
      have := h k
      simp only [memGet_nil, memGet_cons, if_true] at this
      exact absurd this.symm (wf_cons.1 hn).2.1
  | cons c m ih =>
    obtain ⟨j, c⟩ := c
    obtain ⟨hj, hc, hm'⟩ := wf_cons.1 hm
    cases n with
    | nil =>
      have := h j
      simp only [memGet_nil, memGet_cons, if_true] at this
      exact absurd this hc
    | cons d n =>
      obtain ⟨k, d⟩ := d
      obtain ⟨hk, hd, hn'⟩ := wf_cons.1 hn
      have low : ∀ {l : Memory} {a b : Nat}, (∀ e ∈ l, b < e.1) → a ≤ b → memGet l a = unlistedByte :=
        fun hl hab => memGet_of_lt fun e he => lt_of_le_of_lt hab (hl e he)
      have hjk : j = k := by
        rcases lt_trichotomy j k with hlt | he | hlt
        · have := h j
          rw [memGet_cons, memGet_cons, if_pos rfl, if_neg (by omega), low hk hlt.le] at this
          exact absurd this hc
        · exact he
        · have := h k
          rw [memGet_cons, memGet_cons, if_pos rfl, if_neg (by omega), low hj hlt.le] at this
          exact absurd this.symm hd
      subst hjk
      have hcd : c = d := by simpa [memGet_cons] using h j
      subst hcd
      rw [ih hm' hn' fun a => ?_]
      by_cases e : j = a
      · subst e; rw [low hj le_rfl, low hk le_rfl]
      · simpa [memGet_cons, e] using h a

/-- `writeByte` read back, through the model's read of one byte. -/
theorem readByte_writeByte {s : State} (h : s.mem.wf) (addr : Nat) (b : Byte) (a : Nat) :
    readByte (writeByte addr b s) a = if a = addr then b else readByte s a := memGet_memSet h addr b a

/-- A valid write keeps memory canonical and within `MEM_SIZE`. -/
theorem memoryOk_writeByte {s : State} (h : memoryOk s) {addr : Nat} (ha : addr < s.cfg.memSize) (b : Byte) :
    memoryOk (writeByte addr b s) := by
  refine ⟨memSet_wf h.1 addr b, fun c hc => ?_⟩
  rcases mem_memSet (show c ∈ memSet s.mem addr b from hc) with hc | rfl
  · exact h.2 c hc
  · exact ha

end Sys2Proof.Machine
end

