-- ==== Sys2Proof/Laws/Word.lean ====
section
/-! SUPPORT. The fields of a command word and the halves of a 16-bit operand: taking apart and putting together. -/

namespace Sys2Proof

/-- Putting fields together and taking them apart gives them back. -/
@[simp] theorem fieldsOf_wordOf (f : CmdFields) : fieldsOf (wordOf f) = f := by
  obtain ⟨op, sel, m, h, v⟩ := f
  simp only [fieldsOf, wordOf, CmdFields.mk.injEq]
  refine ⟨?_, ?_, ?_, ?_, ?_⟩ <;> ext i hi <;> simp <;> grind

/-- Taking a word apart and putting it together gives it back. -/
@[simp] theorem wordOf_fieldsOf (cw : CmdWord) : wordOf (fieldsOf cw) = cw := by
  ext i hi
  simp only [fieldsOf, wordOf]
  grind

/-- The fields of two words, each bit kept where both have it. -/
def CmdFields.both (f g : CmdFields) : CmdFields := ⟨f.op &&& g.op, f.sel &&& g.sel, f.m &&& g.m, f.h &&& g.h, f.v &&& g.v⟩

/-- A mask acts on each field by itself. -/
theorem wordOf_and (f g : CmdFields) : wordOf f &&& wordOf g = wordOf (f.both g) := by
  have h : fieldsOf (wordOf f &&& wordOf g) = (fieldsOf (wordOf f)).both (fieldsOf (wordOf g)) := by
    simp only [fieldsOf, CmdFields.both, BitVec.extractLsb'_and]
  rw [← wordOf_fieldsOf (wordOf f &&& wordOf g), h, fieldsOf_wordOf, fieldsOf_wordOf]

@[simp] theorem imm16_of_halves (op sel : BitVec 4) (m : Byte) (w : Half) :
    imm16 ⟨op, sel, m, highByte w, lowByte w⟩ = w := by
  ext i hi
  simp only [imm16, highByte, lowByte]
  grind

/-- The halves of a 16-bit operand put together are the operand. -/
@[simp] theorem highByte_append_lowByte (w : Half) : (highByte w ++ lowByte w : Half) = w :=
  imm16_of_halves 0 0 0 w

/-- A word whose last field is an 8-bit operand: its upper 24 bits `q`, then the operand. Evaluate the prefix by decide; a
simp that rewrites the literals under the operand makes a term the kernel is very slow on. -/
theorem wordOf_byte {op sel : BitVec 4} {m h v : Byte} {q : BitVec 24} (hq : op ++ sel ++ m ++ h = q) :
    wordOf ⟨op, sel, m, h, v⟩ = q ++ v := by
  subst hq
  rfl

/-- A word that ends in a 16-bit operand: its upper 16 bits `q`, then the operand. -/
theorem wordOf_half {op sel : BitVec 4} {m : Byte} {w : Half} {q : BitVec 16} (hq : op ++ sel ++ m = q) :
    wordOf ⟨op, sel, m, highByte w, lowByte w⟩ = q ++ w := by
  subst hq
  have joined : ∀ h v : Byte, wordOf ⟨op, sel, m, h, v⟩ = op ++ sel ++ m ++ (h ++ v : Half) := by
    intro h v
    simp only [wordOf]
    ext i hi
    grind
  rw [joined, highByte_append_lowByte]

/-- A word with an operand in the field M: its upper 8 bits `q`, then the fields. -/
theorem wordOf_mask {op sel : BitVec 4} {m h v : Byte} {q : BitVec 8} (hq : op ++ sel = q) :
    wordOf ⟨op, sel, m, h, v⟩ = q ++ m ++ h ++ v := by
  subst hq
  rfl

/-- The same with the last two fields joined. -/
theorem wordOf_mask_half {op sel : BitVec 4} {m h v : Byte} {q : BitVec 8} {w : Half} (hq : op ++ sel = q) (hw : h ++ v = w) :
    wordOf ⟨op, sel, m, h, v⟩ = q ++ m ++ w := by
  subst hq hw
  simp only [wordOf]
  ext i hi
  grind

@[simp] theorem highByte_imm16 (f : CmdFields) : highByte (imm16 f) = f.h := by
  ext i hi
  simp only [imm16, highByte]
  grind

@[simp] theorem lowByte_imm16 (f : CmdFields) : lowByte (imm16 f) = f.v := by
  ext i hi
  simp only [imm16, lowByte]
  grind

/-- `IMM16 = 0` says that both its bytes are 0. -/
@[simp] theorem imm16_eq_zero (f : CmdFields) : imm16 f = 0#16 ↔ f.h = 0#8 ∧ f.v = 0#8 := by
  constructor
  · intro h
    rw [← highByte_imm16 f, ← lowByte_imm16 f, h]
    decide
  · rintro ⟨h, v⟩
    simp only [imm16, h, v]
    decide

@[simp] theorem whenZero_eq_ok {z : Bool} {i j : Instr} : whenZero z i = .ok j ↔ z = true ∧ i = j := by
  cases z <;> simp [whenZero]

@[simp] theorem whenExtension_eq_ok {cfg : Config} {r : Except DecodeReject Instr} {j : Instr} :
    whenExtension cfg r = .ok j ↔ cfg.extAluOps = true ∧ r = .ok j := by
  cases h : cfg.extAluOps <;> simp [whenExtension, h]

namespace Machine

@[simp] theorem u8_eq (b : Byte) : u8 b = b.toNat := rfl

@[simp] theorem u16_eq (w : Half) : u16 w = w.toNat := rfl

/-- Bit 7 of a byte as a number. -/
theorem bit7_eq (b : Byte) : b.getLsbD 7 = decide (128 ≤ b.toNat) := by
  revert b
  decide

/-- The signed value of a byte, for arithmetic (00_scope.md R13). -/
theorem s8_eq (b : Byte) : s8 b = if 128 ≤ b.toNat then (b.toNat : Int) - 256 else b.toNat := by
  rw [s8, bit7_eq]
  split <;> simp_all

@[simp] theorem byteOf_zext16 (v : Byte) : byteOf (zext16 v) = v := by
  ext i hi
  simp [byteOf, zext16]

@[simp] theorem zext16_toNat (v : Byte) : (zext16 v).toNat = v.toNat := by
  simp [zext16]
  omega

@[simp] theorem zext32_toNat (w : Half) : (zext32 w).toNat = w.toNat := by
  simp [zext32]
  omega

end Machine

end Sys2Proof
end

