-- ==== Sys2Proof/Laws/Flags.lean ====
section
/-! SUPPORT. What the status primitives do, bit by bit, and what the ALU's values are as numbers. -/

namespace Sys2Proof.Machine

/-- A bit of the status register as read: bit 5 is 1, the others are as stored (10_state.md R28). -/
theorem readP_getLsbD (s : State) (i : Nat) : (readP s).getLsbD i = (s.p.getLsbD i || decide (i = 5)) := by
  have h : hardwired.getLsbD i = decide (i = 5) := by
    by_cases hi : i < 8
    · have : ∀ j : Fin 8, hardwired.getLsbD j = decide (j.val = 5) := by decide
      exact this ⟨i, hi⟩
    · rw [BitVec.getLsbD_of_ge _ _ (by omega), eq_comm, decide_eq_false_iff_not]
      omega
  rw [readP, BitVec.getLsbD_or, h]

/-- After `writeP v` every bit of P reads as that of `v`, bit 5 as 1. -/
theorem readP_writeP (v : Byte) (s : State) (i : Nat) :
    (readP (writeP v s)).getLsbD i = (v.getLsbD i || decide (i = 5)) := by
  rw [show readP (writeP v s) = readP { s with p := v } by simp [readP, BitVec.or_assoc]]
  exact readP_getLsbD { s with p := v } i

/-- Every write of P stores bit 5 as 1 (10_state.md R28). -/
@[simp] theorem statusOk_writeP (v : Byte) (s : State) : statusOk (writeP v s) := by
  simp [statusOk, hardwired]

/-- What `maskedUpdate` does to a bit other than U: the bit of `v` inside the mask, the bit before outside. -/
theorem readP_maskedUpdate (m v : Byte) (s : State) {i : Nat} (hi : i < 8) (h5 : i ≠ 5) :
    (readP (maskedUpdate m v s)).getLsbD i = if m.getLsbD i then v.getLsbD i else (readP s).getLsbD i := by
  rw [maskedUpdate, readP_writeP]
  simp only [BitVec.getLsbD_or, BitVec.getLsbD_and, BitVec.getLsbD_not, hi, h5, decide_false, decide_true, Bool.or_false,
    Bool.true_and]
  cases m.getLsbD i <;> simp

/-- What `removeFlags` does to a bit other than U. -/
theorem readP_removeFlags (m : Byte) (s : State) {i : Nat} (hi : i < 8) (h5 : i ≠ 5) :
    (readP (removeFlags m s)).getLsbD i = (!m.getLsbD i && (readP s).getLsbD i) := by
  rw [removeFlags, readP_writeP]
  simp only [BitVec.getLsbD_and, BitVec.getLsbD_not, hi, h5, decide_false, decide_true, Bool.or_false,
    Bool.true_and]
  cases m.getLsbD i <;> simp

/-- U reads as 1. -/
@[simp] theorem readP_five (s : State) : (readP s).getLsbD 5 = true := by simp [readP_getLsbD]

/-- The status register as read depends on P alone. -/
theorem readP_congr {s t : State} (h : s.p = t.p) : readP s = readP t := by simp [readP, h]

@[simp] theorem readP_respond (d : Half) (s : State) : readP (respond d s) = readP s := readP_congr (by simp)

@[simp] theorem readP_raiseFault (code : FaultCode) (info : CmdWord) (s : State) : readP (raiseFault code info s) = readP s :=
  readP_congr (by simp)

@[simp] theorem readP_writeByte (addr : Nat) (b : Byte) (s : State) : readP (writeByte addr b s) = readP s :=
  readP_congr (by simp)

@[simp] theorem flagN_respond (d : Half) (s : State) : flagN (respond d s) = flagN s := by
  unfold flagN
  rw [readP_respond]

@[simp] theorem flagV_respond (d : Half) (s : State) : flagV (respond d s) = flagV s := by
  unfold flagV
  rw [readP_respond]

@[simp] theorem flagU_respond (d : Half) (s : State) : flagU (respond d s) = flagU s := by
  unfold flagU
  rw [readP_respond]

@[simp] theorem flagB_respond (d : Half) (s : State) : flagB (respond d s) = flagB s := by
  unfold flagB
  rw [readP_respond]

@[simp] theorem flagD_respond (d : Half) (s : State) : flagD (respond d s) = flagD s := by
  unfold flagD
  rw [readP_respond]

@[simp] theorem flagI_respond (d : Half) (s : State) : flagI (respond d s) = flagI s := by
  unfold flagI
  rw [readP_respond]

@[simp] theorem flagZ_respond (d : Half) (s : State) : flagZ (respond d s) = flagZ s := by
  unfold flagZ
  rw [readP_respond]

@[simp] theorem flagC_respond (d : Half) (s : State) : flagC (respond d s) = flagC s := by
  unfold flagC
  rw [readP_respond]

/-- The bits of the values of the tail. -/
theorem nzValues_bits (r : Byte) :
    (nzValues r).getLsbD 7 = r.getLsbD 7 ∧ (nzValues r).getLsbD 1 = decide (r = 0x00) := by
  revert r
  decide

/-- The bits of the values of the masked update of ADC and SBC. -/
theorem cvValues_bits (cout vout : Bool) : (cvValues cout vout).getLsbD 0 = cout ∧ (cvValues cout vout).getLsbD 6 = vout := by
  revert cout vout
  decide

/-- THE SIGN/ZERO TAIL, flag by flag (40_status_ops.md R102). -/
theorem nzTail_flags (r : Byte) (s : State) :
    flagN (nzTail r s) = r.getLsbD 7 ∧ flagZ (nzTail r s) = decide (r = 0x00) ∧ flagC (nzTail r s) = flagC s ∧
      flagV (nzTail r s) = flagV s ∧ flagB (nzTail r s) = flagB s ∧ flagD (nzTail r s) = flagD s ∧
      flagI (nzTail r s) = flagI s := by
  obtain ⟨h7, h1⟩ := nzValues_bits r
  unfold nzTail flagN flagZ flagC flagV flagB flagD flagI
  iterate 7 rw [readP_maskedUpdate _ _ _ (by omega) (by omega)]
  rw [h7, h1]
  refine ⟨rfl, rfl, rfl, rfl, rfl, rfl, rfl⟩

/-- The masked update of C and V, flag by flag (42_alu_ops.md R145). -/
theorem maskedUpdate_cv_flags (cout vout : Bool) (s : State) :
    let t := maskedUpdate (maskC ||| maskV) (cvValues cout vout) s
    flagN t = flagN s ∧ flagZ t = flagZ s ∧ flagC t = cout ∧ flagV t = vout ∧ flagB t = flagB s ∧ flagD t = flagD s ∧
      flagI t = flagI s := by
  obtain ⟨h0, h6⟩ := cvValues_bits cout vout
  dsimp only
  unfold flagN flagZ flagC flagV flagB flagD flagI
  iterate 7 rw [readP_maskedUpdate _ _ _ (by omega) (by omega)]
  rw [h0, h6]
  refine ⟨rfl, rfl, rfl, rfl, rfl, rfl, rfl⟩

/-- THE END OF AN ARITHMETIC COMMAND, flag by flag (42_alu_ops.md R141). -/
theorem finishArith_flags (r : Byte) (cout vout : Bool) (s : State) :
    let t := finishArith r cout vout s
    flagN t = r.getLsbD 7 ∧ flagZ t = decide (r = 0x00) ∧ flagC t = cout ∧ flagV t = vout ∧ flagB t = flagB s ∧
      flagD t = flagD s ∧ flagI t = flagI s := by
  obtain ⟨n, z, -, -, b, d, i⟩ := nzTail_flags r s
  obtain ⟨n', z', c', v', b', d', i'⟩ := maskedUpdate_cv_flags cout vout (nzTail r s)
  have h : readP (finishArith r cout vout s) = readP (maskedUpdate (maskC ||| maskV) (cvValues cout vout) (nzTail r s)) :=
    readP_congr (by simp only [finishArith_p])
  unfold flagN flagZ flagC flagV flagB flagD flagI at *
  dsimp only
  rw [h]
  exact ⟨n'.trans n, z'.trans z, c', v', b'.trans b, d'.trans d, i'.trans i⟩

/-- THE END OF A LOGIC COMMAND, flag by flag (42_alu_ops.md R148). -/
theorem finishLogic_flags (r : Byte) (s : State) :
    let t := finishLogic r s
    flagN t = r.getLsbD 7 ∧ flagZ t = decide (r = 0x00) ∧ flagC t = flagC s ∧ flagV t = flagV s ∧ flagB t = flagB s ∧
      flagD t = flagD s ∧ flagI t = flagI s := by
  have h : readP (finishLogic r s) = readP (nzTail r s) := readP_congr (by simp only [finishLogic_p])
  have hn := nzTail_flags r s
  unfold flagN flagZ flagC flagV flagB flagD flagI at *
  dsimp only
  rw [h]
  exact hn

/-- Both ends store U as 1 (10_state.md R28). -/
theorem statusOk_finish (r : Byte) (cout vout : Bool) (s : State) :
    statusOk (finishArith r cout vout s) ∧ statusOk (finishLogic r s) :=
  ⟨statusOk_writeP ((readP (nzTail r s) &&& ~~~(maskC ||| maskV)) ||| (cvValues cout vout &&& (maskC ||| maskV))) (nzTail r s),
    statusOk_writeP ((readP s &&& ~~~(maskN ||| maskZ)) ||| (nzValues r &&& (maskN ||| maskZ))) s⟩

/-- The carry is 0 or 1 (40_status_ops.md R100, R101). -/
theorem carry_le_one (s : State) : carry s ≤ 1 := by
  unfold carry
  cases flagC s <;> decide

/-- The carry as a number. -/
theorem carry_eq (s : State) : carry s = if flagC s then 1 else 0 := by
  unfold carry
  cases flagC s <;> rfl

/-- When ADC and SBC are refused (42_alu_ops.md R140). -/
theorem decimalRefused_iff {s : State} : decimalRefused s = true ↔ s.cfg.decimalPolicy = .refuse ∧ flagD s = true := by
  simp [decimalRefused]

/-- ADC's sum as a number (42_alu_ops.md R142). -/
theorem addBytes_toNat (a : Byte) (c : Nat) (b : Byte) : (addBytes a c b).toNat = (a.toNat + c + b.toNat) % 256 := by
  simp [addBytes, u8]

/-- `P` after a tail or an update depends on P alone. -/
theorem maskedUpdate_p_congr {s t : State} (h : s.p = t.p) (m v : Byte) : (maskedUpdate m v s).p = (maskedUpdate m v t).p := by
  simp [readP, h]

end Sys2Proof.Machine
end

