-- ==== Sys2Proof/Laws/Exec.lean ====
section
/-! SUPPORT. Said once: everything a command can do when it answers a next state, and what the command port offers. -/

namespace Sys2Proof.Machine

/-- An address is valid iff it is below `MEM_SIZE` (20_memory.md R52). -/
theorem validAddr_iff {s : State} {addr : Half} : validAddr s addr = true ↔ addr.toNat < s.cfg.memSize := by
  simp [validAddr]

/-- See `validAddr_iff`. -/
theorem validAddr_eq_false {s : State} {addr : Half} : validAddr s addr = false ↔ s.cfg.memSize ≤ addr.toNat := by
  simp [validAddr]

/-- The six shapes of a next state. -/
inductive Effect (s : State) : State → Prop where
  /-- A command that only responds. -/
  | response (d : Half) : Effect s (respond d s)
  /-- A command that writes P, and A if it is an ALU command; U is stored as 1. -/
  | aluStatus (a p : Byte) (hp : p.getLsbD 5 = true) : Effect s (respond 0x0000 { s with a := a, p := p })
  /-- REGWR. -/
  | register (r : Reg) (w : Half) : Effect s (respond 0x0000 (writeReg r w s))
  /-- MEMWRITE in range. -/
  | store (addr : Half) (d : Byte) (h : u16 addr < s.cfg.memSize) : Effect s (respond 0x0000 (writeByte (u16 addr) d s))
  /-- MEMREAD or MEMWRITE out of range. -/
  | bounds (addr : Half) (h : s.cfg.memSize ≤ u16 addr) : Effect s (boundsFault addr s)
  /-- RESET. -/
  | recreated : Effect s (respond 0x0000 (recreate s))

/-- The end of an arithmetic command is an `aluStatus` effect. -/
theorem finishArith_effect (r : Byte) (c v : Bool) (s : State) : Effect s (finishArith r c v s) := by
  have h := statusOk_writeP ((readP (nzTail r s) &&& ~~~(maskC ||| maskV)) ||| (cvValues c v &&& (maskC ||| maskV))) (nzTail r s)
  exact .aluStatus r _ h

/-- The end of a logic command is an `aluStatus` effect. -/
theorem finishLogic_effect (r : Byte) (s : State) : Effect s (finishLogic r s) :=
  .aluStatus r (nzTail r s).p (statusOk_writeP _ s)

/-- ADC when it is not refused. -/
theorem exec_adc {v : Byte} {s : State} (h : decimalRefused s = false) :
    exec (.adc v) s =
      .next (finishArith (addBytes s.a (carry s) v) (adcCarryOut s.cfg.adcCarryRule s.a (carry s) v)
        (overflow s.a v (addBytes s.a (carry s) v)) s) := by
  simp [exec, execAdc, h]

/-- SBC when it is not refused. -/
theorem exec_sbc {v : Byte} {s : State} (h : decimalRefused s = false) :
    exec (.sbc v) s =
      .next (finishArith (addBytes s.a (carry s) (~~~v)) (carryOutFull s.a (carry s) (~~~v))
        (sbcOverflow s.a (~~~v) (addBytes s.a (carry s) (~~~v))) s) := by
  simp [exec, execSbc, h]

/-- INVERSION of ADC. -/
theorem exec_adc_next {v : Byte} {s t : State} (h : exec (.adc v) s = .next t) :
    decimalRefused s = false ∧
      t = finishArith (addBytes s.a (carry s) v) (adcCarryOut s.cfg.adcCarryRule s.a (carry s) v)
        (overflow s.a v (addBytes s.a (carry s) v)) s := by
  rcases hr : decimalRefused s
  · rw [exec_adc hr] at h
    exact ⟨rfl, by injection h with h; exact h.symm⟩
  · simp [exec, execAdc, hr] at h

/-- INVERSION of SBC. -/
theorem exec_sbc_next {v : Byte} {s t : State} (h : exec (.sbc v) s = .next t) :
    decimalRefused s = false ∧
      t = finishArith (addBytes s.a (carry s) (~~~v)) (carryOutFull s.a (carry s) (~~~v))
        (sbcOverflow s.a (~~~v) (addBytes s.a (carry s) (~~~v))) s := by
  rcases hr : decimalRefused s
  · rw [exec_sbc hr] at h
    exact ⟨rfl, by injection h with h; exact h.symm⟩
  · simp [exec, execSbc, hr] at h

/-- INVERSION of MEMREAD. -/
theorem exec_memread_next {addr : Half} {s t : State} (h : exec (.memread addr) s = .next t) :
    (addr.toNat < s.cfg.memSize ∧ t = respond (zext16 (readByte s addr.toNat)) s) ∨
      (s.cfg.memSize ≤ addr.toNat ∧ t = boundsFault addr s) := by
  rcases hv : validAddr s addr
  · simp only [exec, execMemread, hv, Bool.false_eq_true, if_false] at h
    exact .inr ⟨validAddr_eq_false.1 hv, by injection h with h; exact h.symm⟩
  · simp only [exec, execMemread, hv, if_true] at h
    exact .inl ⟨validAddr_iff.1 hv, by injection h with h; exact h.symm⟩

/-- INVERSION of MEMWRITE. -/
theorem exec_memwrite_next {addr : Half} {d : Byte} {s t : State} (h : exec (.memwrite addr d) s = .next t) :
    (addr.toNat < s.cfg.memSize ∧ t = respond 0x0000 (writeByte addr.toNat d s)) ∨
      (s.cfg.memSize ≤ addr.toNat ∧ t = boundsFault addr s) := by
  rcases hv : validAddr s addr
  · simp only [exec, execMemwrite, hv, Bool.false_eq_true, if_false] at h
    exact .inr ⟨validAddr_eq_false.1 hv, by injection h with h; exact h.symm⟩
  · simp only [exec, execMemwrite, hv, if_true] at h
    exact .inl ⟨validAddr_iff.1 hv, by injection h with h; exact h.symm⟩

/-- INVERSION: a command that answers a next state has one of the six effects. -/
theorem exec_effect {i : Instr} {s t : State} (h : exec i s = .next t) : Effect s t := by
  cases i with
  | adc v => rw [(exec_adc_next h).2]; exact finishArith_effect _ _ _ s
  | sbc v => rw [(exec_sbc_next h).2]; exact finishArith_effect _ _ _ s
  | and v => cases h; exact finishLogic_effect _ s
  | ora v => cases h; exact finishLogic_effect _ s
  | eor v => cases h; exact finishLogic_effect _ s
  | setnz v => cases h; exact .aluStatus s.a (nzTail v s).p (statusOk_writeP _ s)
  | setmask m v => cases h; exact .aluStatus s.a (maskedUpdate m v s).p (statusOk_writeP _ s)
  | remove m => cases h; exact .aluStatus s.a (removeFlags m s).p (statusOk_writeP _ s)
  | contains m => cases h; exact .response _
  | getcarry => cases h; exact .response _
  | memread addr =>
    obtain ⟨-, rfl⟩ | ⟨hv, rfl⟩ := exec_memread_next h
    · exact .response _
    · exact .bounds addr hv
  | memwrite addr d =>
    obtain ⟨hv, rfl⟩ | ⟨hv, rfl⟩ := exec_memwrite_next h
    · exact .store addr d hv
    · exact .bounds addr hv
  | regrdA | regrdX | regrdY | regrdSP | regrdPC | regrdP => cases h; exact .response _
  | regwrA | regwrX | regwrY | regwrSP | regwrPC | regwrP => cases h; exact .register _ _
  | reset => cases h; exact .recreated

/-- The command port, case by case. -/
theorem acceptCommand_cases (s : State) :
    (∃ latch, s.fault = some latch ∧ acceptCommand s = .halted latch) ∨
      (s.fault = none ∧ s.cmds = [] ∧ acceptCommand s = .idle) ∨
      ∃ cw rest, s.fault = none ∧ s.cmds = cw :: rest ∧ acceptCommand s = .command cw { s with cmds := rest } := by
  rcases hf : s.fault with _ | latch
  · rcases hq : s.cmds with _ | ⟨cw, rest⟩
    · exact .inr (.inl ⟨rfl, rfl, by simp [acceptCommand, hf, hq]⟩)
    · exact .inr (.inr ⟨cw, rest, rfl, rfl, by simp [acceptCommand, hf, hq]⟩)
  · exact .inl ⟨latch, rfl, by simp [acceptCommand, hf]⟩

/-- INVERSION of a step that answers a next state: the core was not halted, and was idle and stays as it is, or took the oldest
word and ran the command it decodes to, or found it reserved. -/
theorem step_next {s t : State} (h : step s = .next t) :
    s.fault = none ∧
      ((s.cmds = [] ∧ t = s) ∨
        ∃ cw rest, s.cmds = cw :: rest ∧
          ((∃ i, decode s.cfg cw = .ok i ∧ exec i { s with cmds := rest } = .next t) ∨
            ∃ why, decode s.cfg cw = .error why ∧ t = illegalFault cw { s with cmds := rest })) := by
  unfold step at h
  obtain ⟨latch, -, ha⟩ | ⟨hf, hq, ha⟩ | ⟨cw, rest, hf, hq, ha⟩ := acceptCommand_cases s
  · rw [ha] at h
    cases h
  · rw [ha] at h
    cases h
    exact ⟨hf, .inl ⟨hq, rfl⟩⟩
  · rw [ha] at h
    refine ⟨hf, .inr ⟨cw, rest, hq, ?_⟩⟩
    dsimp only at h
    split at h
    · next i hd => exact .inl ⟨i, hd, h⟩
    · next why hd =>
      cases h
      exact .inr ⟨why, hd, rfl⟩

end Sys2Proof.Machine
end

