-- ==== Sys2Proof/Laws/PerInstr.lean ====
section
/-! SUPPORT. Per-instruction families, one lemma per constructor of Instr. -/

namespace Sys2Proof.Laws.TableWord

/-- TableWord: some row of spec/opcode_table.json has the mnemonic of the command and accepts its word. -/
def Statement (i : Instr) : Prop := ∃ r ∈ opcodeTable, r.mnemonic = i.mnemonic ∧ r.accepts (encode i) = true

/-- A row accepts a command's word when its mask and bits, field by field, agree with the command's fields. -/
theorem of_fields {i : Instr} (n : String) (mask bits : CmdFields) (hr : ⟨n, wordOf mask, wordOf bits⟩ ∈ opcodeTable)
    (hn : n = i.mnemonic) (h : (encodeFields i).both mask = bits) : Statement i := by
  refine ⟨_, hr, hn, ?_⟩
  rw [TableRow.accepts, beq_iff_eq, encode, wordOf_and, h]

theorem adc (v : Byte) : Statement (.adc v) :=
  of_fields "ADC" ⟨0xF, 0xF, 0xFF, 0xFF, 0x00⟩ ⟨0x1, 0x0, 0x00, 0x00, 0x00⟩ (by decide) rfl (by simp [encodeFields, CmdFields.both])

theorem and (v : Byte) : Statement (.and v) :=
  of_fields "AND" ⟨0xF, 0xF, 0xFF, 0xFF, 0x00⟩ ⟨0x2, 0x0, 0x00, 0x00, 0x00⟩ (by decide) rfl (by simp [encodeFields, CmdFields.both])

theorem setnz (v : Byte) : Statement (.setnz v) :=
  of_fields "SETNZ" ⟨0xF, 0xF, 0xFF, 0xFF, 0x00⟩ ⟨0x3, 0x0, 0x00, 0x00, 0x00⟩ (by decide) rfl (by simp [encodeFields, CmdFields.both])

theorem setmask (m : Byte) (v : Byte) : Statement (.setmask m v) :=
  of_fields "SETMASK" ⟨0xF, 0xF, 0x00, 0xFF, 0x00⟩ ⟨0x4, 0x0, 0x00, 0x00, 0x00⟩ (by decide) rfl (by simp [encodeFields, CmdFields.both])

theorem contains (m : Byte) : Statement (.contains m) :=
  of_fields "CONTAINS" ⟨0xF, 0xF, 0x00, 0xFF, 0xFF⟩ ⟨0x5, 0x0, 0x00, 0x00, 0x00⟩ (by decide) rfl (by simp [encodeFields, CmdFields.both])

theorem remove (m : Byte) : Statement (.remove m) :=
  of_fields "REMOVE" ⟨0xF, 0xF, 0x00, 0xFF, 0xFF⟩ ⟨0x6, 0x0, 0x00, 0x00, 0x00⟩ (by decide) rfl (by simp [encodeFields, CmdFields.both])

theorem getcarry : Statement .getcarry :=
  of_fields "GETCARRY" ⟨0xF, 0xF, 0xFF, 0xFF, 0xFF⟩ ⟨0x7, 0x0, 0x00, 0x00, 0x00⟩ (by decide) rfl (by simp [encodeFields, CmdFields.both])

theorem memread (addr : Half) : Statement (.memread addr) :=
  of_fields "MEMREAD" ⟨0xF, 0xF, 0xFF, 0x00, 0x00⟩ ⟨0x8, 0x0, 0x00, 0x00, 0x00⟩ (by decide) rfl (by simp [encodeFields, CmdFields.both])

theorem memwrite (addr : Half) (d : Byte) : Statement (.memwrite addr d) :=
  of_fields "MEMWRITE" ⟨0xF, 0xF, 0x00, 0x00, 0x00⟩ ⟨0x9, 0x0, 0x00, 0x00, 0x00⟩ (by decide) rfl (by simp [encodeFields, CmdFields.both])

theorem regrdA : Statement .regrdA :=
  of_fields "REGRD.A" ⟨0xF, 0xF, 0xFF, 0xFF, 0xFF⟩ ⟨0xA, 0x0, 0x00, 0x00, 0x00⟩ (by decide) rfl (by simp [encodeFields, CmdFields.both])

theorem regrdX : Statement .regrdX :=
  of_fields "REGRD.X" ⟨0xF, 0xF, 0xFF, 0xFF, 0xFF⟩ ⟨0xA, 0x1, 0x00, 0x00, 0x00⟩ (by decide) rfl (by simp [encodeFields, CmdFields.both])

theorem regrdY : Statement .regrdY :=
  of_fields "REGRD.Y" ⟨0xF, 0xF, 0xFF, 0xFF, 0xFF⟩ ⟨0xA, 0x2, 0x00, 0x00, 0x00⟩ (by decide) rfl (by simp [encodeFields, CmdFields.both])

theorem regrdSP : Statement .regrdSP :=
  of_fields "REGRD.SP" ⟨0xF, 0xF, 0xFF, 0xFF, 0xFF⟩ ⟨0xA, 0x3, 0x00, 0x00, 0x00⟩ (by decide) rfl (by simp [encodeFields, CmdFields.both])

theorem regrdPC : Statement .regrdPC :=
  of_fields "REGRD.PC" ⟨0xF, 0xF, 0xFF, 0xFF, 0xFF⟩ ⟨0xA, 0x4, 0x00, 0x00, 0x00⟩ (by decide) rfl (by simp [encodeFields, CmdFields.both])

theorem regrdP : Statement .regrdP :=
  of_fields "REGRD.P" ⟨0xF, 0xF, 0xFF, 0xFF, 0xFF⟩ ⟨0xA, 0x5, 0x00, 0x00, 0x00⟩ (by decide) rfl (by simp [encodeFields, CmdFields.both])

theorem regwrA (v : Byte) : Statement (.regwrA v) :=
  of_fields "REGWR.A" ⟨0xF, 0xF, 0xFF, 0xFF, 0x00⟩ ⟨0xB, 0x0, 0x00, 0x00, 0x00⟩ (by decide) rfl (by simp [encodeFields, CmdFields.both])

theorem regwrX (v : Byte) : Statement (.regwrX v) :=
  of_fields "REGWR.X" ⟨0xF, 0xF, 0xFF, 0xFF, 0x00⟩ ⟨0xB, 0x1, 0x00, 0x00, 0x00⟩ (by decide) rfl (by simp [encodeFields, CmdFields.both])

theorem regwrY (v : Byte) : Statement (.regwrY v) :=
  of_fields "REGWR.Y" ⟨0xF, 0xF, 0xFF, 0xFF, 0x00⟩ ⟨0xB, 0x2, 0x00, 0x00, 0x00⟩ (by decide) rfl (by simp [encodeFields, CmdFields.both])

theorem regwrSP (v : Byte) : Statement (.regwrSP v) :=
  of_fields "REGWR.SP" ⟨0xF, 0xF, 0xFF, 0xFF, 0x00⟩ ⟨0xB, 0x3, 0x00, 0x00, 0x00⟩ (by decide) rfl (by simp [encodeFields, CmdFields.both])

theorem regwrPC (w : Half) : Statement (.regwrPC w) :=
  of_fields "REGWR.PC" ⟨0xF, 0xF, 0xFF, 0x00, 0x00⟩ ⟨0xB, 0x4, 0x00, 0x00, 0x00⟩ (by decide) rfl (by simp [encodeFields, CmdFields.both])

theorem regwrP (v : Byte) : Statement (.regwrP v) :=
  of_fields "REGWR.P" ⟨0xF, 0xF, 0xFF, 0xFF, 0x00⟩ ⟨0xB, 0x5, 0x00, 0x00, 0x00⟩ (by decide) rfl (by simp [encodeFields, CmdFields.both])

theorem reset : Statement .reset :=
  of_fields "RESET" ⟨0xF, 0xF, 0xFF, 0xFF, 0xFF⟩ ⟨0xC, 0x0, 0x00, 0x00, 0x00⟩ (by decide) rfl (by simp [encodeFields, CmdFields.both])

theorem sbc (v : Byte) : Statement (.sbc v) :=
  of_fields "SBC" ⟨0xF, 0xF, 0xFF, 0xFF, 0x00⟩ ⟨0xD, 0x0, 0x00, 0x00, 0x00⟩ (by decide) rfl (by simp [encodeFields, CmdFields.both])

theorem ora (v : Byte) : Statement (.ora v) :=
  of_fields "ORA" ⟨0xF, 0xF, 0xFF, 0xFF, 0x00⟩ ⟨0xE, 0x0, 0x00, 0x00, 0x00⟩ (by decide) rfl (by simp [encodeFields, CmdFields.both])

theorem eor (v : Byte) : Statement (.eor v) :=
  of_fields "EOR" ⟨0xF, 0xF, 0xFF, 0xFF, 0x00⟩ ⟨0xF, 0x0, 0x00, 0x00, 0x00⟩ (by decide) rfl (by simp [encodeFields, CmdFields.both])

end Sys2Proof.Laws.TableWord
end

