-- ==== Sys2Proof/Tests/Slice0.lean ====
section
/-! SUPPORT. Tests of the model's own, the ill-formed terms that WellFormed refuses, and a witness for each statement that has
hypotheses. An expected value names the row of 95_test_vectors.md or the rule it is taken from. -/

namespace Sys2Proof.Tests

open Sys2Proof Sys2Proof.Machine

/-! Helpers -/

/-- The reset state with A and P given. -/
def start (a p : Byte) : State := { State.reset with a := a, p := p }

/-- The reset state of a core with `MEM_SIZE = 0x4000`, with the given words issued. -/
def small (words : List CmdWord) : State := { State.create { Config.default with memSize := 0x4000 } with cmds := words }

/-- A core without the extension commands, with the given words issued. -/
def plain (words : List CmdWord) : State := { State.create { Config.default with extAluOps := false } with cmds := words }

/-- A core with `DECIMAL_POLICY = REFUSE` and D = 1, with the given words issued. -/
def refusing (words : List CmdWord) : State :=
  { State.create { Config.default with decimalPolicy := .refuse } with p := 0x28, cmds := words }

/-- A core with the literal carry rule, A and P given. -/
def literal (a p : Byte) : State :=
  { State.create { Config.default with adcCarryRule := .literalCompare } with a := a, p := p }

/-- The reset state with the given words issued. -/
def issued (words : List CmdWord) : State := { State.reset with cmds := words }

/-- A halted core. -/
def haltedCore : State :=
  { State.reset with fault := some ⟨.illegalCommand, 0x00000000⟩, resp := some ⟨.fault, 0x0002⟩, cmds := [0xC0000000] }

/-- The next state, if there is one. -/
def nextOf : Result → Option State
  | .next t => some t
  | .fault _ => none
  | .refused _ => none

/-- A and P after the step that runs one word. -/
def aAndP (s : State) (cw : Nat) : Option (Byte × Byte) := (nextOf (step (s.withFetchWord 32 cw))).map fun t => (t.a, t.p)

/-- The response to one word. -/
def responseTo (s : State) (cw : Nat) : Option Response := (nextOf (step (s.withFetchWord 32 cw))).bind State.resp

/-- The state after the step that runs one word. -/
def after (s : State) (cw : CmdWord) : Option State := nextOf (step (issueNext cw s))

/-- What 95_test_vectors.md 2.8 gives a reserved word. -/
def illegal (s : State) (cw : CmdWord) : Option State :=
  some { s with fault := some ⟨.illegalCommand, cw⟩, resp := some ⟨.fault, 0x0002⟩ }

/-- How a step that answers no next state ends. -/
def stopOf : Result → Option (Fault ⊕ Refusal)
  | .next _ => none
  | .fault f => some (.inl f)
  | .refused r => some (.inr r)

/-! WellFormed: what it refuses -/

theorem test_sbc_ill_formed_without_extension :
    Instr.wellFormed { Config.default with extAluOps := false } (.sbc 0x03) = false := by decide

theorem test_ora_ill_formed_without_extension :
    Instr.wellFormed { Config.default with extAluOps := false } (.ora 0xF0) = false := by decide

theorem test_eor_ill_formed_without_extension :
    Instr.wellFormed { Config.default with extAluOps := false } (.eor 0xFF) = false := by decide

/-- 00_scope.md R8: a positive integer at most 65536. -/
theorem test_mem_size_bounds :
    ¬ Config.wf { Config.default with memSize := 0 } ∧ ¬ Config.wf { Config.default with memSize := 65537 } ∧
      Config.wf Config.default := by decide

/-- Log 9: a memory out of order, with an address twice, or listing 0x00, is not canonical. -/
theorem test_memory_ill_formed :
    ¬ Memory.wf [(2, 0x01), (1, 0x01)] ∧ ¬ Memory.wf [(1, 0x01), (1, 0x02)] ∧ ¬ Memory.wf [(1, 0x00)] ∧
      Memory.wf [(1, 0x01), (2, 0x01)] := by decide

/-! Decoding: words written out from 30_encoding.md R72 to R76 -/

/-- OP, SEL, M, H, V of each word: 0x1, 0, 0, 0, v and so on down the table of R75. -/
theorem test_decode_alu :
    [0x100000A5, 0x200000A5, 0xD00000A5, 0xE00000A5, 0xF00000A5].map (decode? Config.default) =
      [some (.adc 0xA5), some (.and 0xA5), some (.sbc 0xA5), some (.ora 0xA5), some (.eor 0xA5)] := by decide

theorem test_decode_status :
    [0x300000A5, 0x40C300A5, 0x50C30000, 0x60C30000, 0x70000000].map (decode? Config.default) =
      [some (.setnz 0xA5), some (.setmask 0xC3 0xA5), some (.contains 0xC3), some (.remove 0xC3), some .getcarry] := by decide

theorem test_decode_memory_reset :
    [0x8000CAFE, 0x90A5CAFE, 0xC0000000].map (decode? Config.default) =
      [some (.memread 0xCAFE), some (.memwrite 0xCAFE 0xA5), some .reset] := by decide

theorem test_decode_regrd :
    [0xA0000000, 0xA1000000, 0xA2000000, 0xA3000000, 0xA4000000, 0xA5000000].map (decode? Config.default) =
      [some .regrdA, some .regrdX, some .regrdY, some .regrdSP, some .regrdPC, some .regrdP] := by decide

theorem test_decode_regwr :
    [0xB00000A5, 0xB10000A5, 0xB20000A5, 0xB30000A5, 0xB400CAFE, 0xB50000A5].map (decode? Config.default) =
      [some (.regwrA 0xA5), some (.regwrX 0xA5), some (.regwrY 0xA5), some (.regwrSP 0xA5), some (.regwrPC 0xCAFE),
        some (.regwrP 0xA5)] := by decide

/-- The numbering of spec/opcode_table.json is that of the word (log 12). -/
theorem test_decode_table_word :
    decodeTableWord 32 0x90A5CAFE = some (.memwrite 0xCAFE 0xA5) ∧ decodeTableWord 32 0 = none := by decide

/-- No word is accepted by two rows of the opcode table: two rows differ in a bit both masks keep. -/
theorem test_rows_do_not_overlap : opcodeTable.Pairwise fun r q => (r.bits ^^^ q.bits) &&& r.mask &&& q.mask ≠ 0 := by decide

/-- ILL-01 to ILL-07. -/
theorem test_illegal_words_1 :
    [0x00000000#32, 0x10000100#32, 0x11000001#32, 0x10010001#32, 0xA6000000#32, 0xB6000000#32, 0xB0000100#32].map
        (after State.reset) =
      [0x00000000#32, 0x10000100#32, 0x11000001#32, 0x10010001#32, 0xA6000000#32, 0xB6000000#32, 0xB0000100#32].map
        (illegal State.reset) := by decide

/-- ILL-08 to ILL-13. -/
theorem test_illegal_words_2 :
    [0xB4010000#32, 0x70000001#32, 0xC0000001#32, 0x81000000#32, 0x50010001#32, 0x40000100#32].map (after State.reset) =
      [0xB4010000#32, 0x70000001#32, 0xC0000001#32, 0x81000000#32, 0x50010001#32, 0x40000100#32].map
        (illegal State.reset) := by decide

/-- ILL-14, and its nearest accepted word. -/
theorem test_illegal_extension :
    after (plain []) 0xD0000001 = illegal (plain []) 0xD0000001 ∧
      decode? Config.default 0xD0000001 = some (.sbc 0x01) := by decide

/-! The commands: rows of 95_test_vectors.md -/

/-- ADC-14, under both carry rules. -/
theorem test_adc_carry_rules :
    aAndP (start 0xFF 0x21) 0x100000FF = some (0xFF, 0xA1) ∧ aAndP (literal 0xFF 0x21) 0x100000FF = some (0xFF, 0xA0) := by decide

/-- ADC-05, ADC-17: a negative overflow with carry; B, D and I kept. -/
theorem test_adc_flags :
    aAndP (start 0x80 0x20) 0x100000FF = some (0x7F, 0x61) ∧ aAndP (start 0x01 0x3D) 0x10000001 = some (0x03, 0x3C) := by decide

/-- ADC-19. -/
theorem test_adc_refused : stopOf (step ((refusing []).withFetchWord 32 0x10000001)) = some (.inr .decimalAdc) := by decide

/-- SBC-04, SBC-09: a borrow-in; an overflow. -/
theorem test_sbc :
    aAndP (start 0x05 0x20) 0xD0000005 = some (0xFF, 0xA0) ∧ aAndP (start 0x00 0x21) 0xD0000080 = some (0x80, 0xE0) := by decide

/-- 43_alu_ext_ops.md R160. -/
theorem test_sbc_refused : stopOf (step ((refusing []).withFetchWord 32 0xD0000001)) = some (.inr .decimalSbc) := by decide

/-- AND-03, AND-08. -/
theorem test_and :
    aAndP (start 0xFF 0x61) 0x20000080 = some (0x80, 0xE1) ∧ aAndP (refusing []) 0x200000FF = some (0x00, 0x2A) := by decide

/-- ORA-02. -/
theorem test_ora : aAndP (start 0x0F 0x61) 0xE00000F0 = some (0xFF, 0xE1) := by decide

/-- EOR-02. -/
theorem test_eor : aAndP (start 0x0F 0x61) 0xF00000FF = some (0xF0, 0xE1) := by decide

/-- ST-22, ST-24. -/
theorem test_setnz :
    aAndP (start 0x07 0x61) 0x30000080 = some (0x07, 0xE1) ∧ aAndP (start 0x07 0xA2) 0x30000055 = some (0x07, 0x20) := by decide

/-- ST-03, ST-05. -/
theorem test_setmask :
    aAndP (start 0x07 0x22) 0x404100C3 = some (0x07, 0x63) ∧ aAndP (start 0x07 0x20) 0x40FF0000 = some (0x07, 0x20) := by decide

/-- ST-10, ST-11. -/
theorem test_remove :
    aAndP (start 0x07 0xFF) 0x60FF0000 = some (0x07, 0x20) ∧ aAndP (start 0x07 0x63) 0x60400000 = some (0x07, 0x23) := by decide

/-- ST-12, ST-13, ST-15. -/
theorem test_contains :
    responseTo (start 0x00 0x21) 0x50010000 = some ⟨.ok, 0x0001⟩ ∧ responseTo (start 0x00 0x21) 0x50810000 = some ⟨.ok, 0x0000⟩ ∧
      responseTo (start 0x00 0x20) 0x50200000 = some ⟨.ok, 0x0001⟩ := by decide

/-- ST-17, ST-18. -/
theorem test_getcarry :
    responseTo (start 0x00 0x21) 0x70000000 = some ⟨.ok, 0x0001⟩ ∧
      responseTo (start 0x00 0x20) 0x70000000 = some ⟨.ok, 0x0000⟩ := by decide

/-- MEM-03, MEM-05. -/
theorem test_memread :
    responseTo { State.reset with mem := [(0xFFFF, 0xAB)] } 0x8000FFFF = some ⟨.ok, 0x00AB⟩ ∧
      responseTo (small []) 0x80003FFF = some ⟨.ok, 0x0000⟩ := by decide

/-- MEM-06. -/
theorem test_memread_bounds :
    after (small []) 0x80004000 =
      some { small [] with fault := some ⟨.boundsViolation, 0x00004000⟩, resp := some ⟨.fault, 0x0001⟩ } := by decide

/-- MEM-02; and 0x00 written over it leaves the memory of reset. -/
theorem test_memwrite :
    after State.reset 0x90ABFFFF = some { State.reset with mem := [(0xFFFF, 0xAB)], resp := some ⟨.ok, 0x0000⟩ } ∧
      after { State.reset with mem := [(0xFFFF, 0xAB)] } 0x9000FFFF =
        some { State.reset with resp := some ⟨.ok, 0x0000⟩ } := by decide

/-- MEM-07: the fault, and then no step for RESET. -/
theorem test_memwrite_bounds :
    after (small []) 0x90114000 =
        some { small [] with fault := some ⟨.boundsViolation, 0x00004000⟩, resp := some ⟨.fault, 0x0001⟩ } ∧
      stopOf (step { small [0xC0000000] with fault := some ⟨.boundsViolation, 0x00004000⟩ }) =
        some (.inl (.halted ⟨.boundsViolation, 0x00004000⟩)) := by decide

/-- REG-07. -/
theorem test_regrd :
    [0xA0000000, 0xA1000000, 0xA2000000, 0xA3000000, 0xA4000000, 0xA5000000].map
        (responseTo { State.reset with a := 0xFF, x := 0x12, y := 0x34, sp := 0xFD, pc := 0xFFFF }) =
      [0x00FF, 0x0012, 0x0034, 0x00FD, 0xFFFF, 0x0020].map fun d => some ⟨.ok, d⟩ := by decide

/-- REG-01, REG-06: no sign/zero tail; the clamp. -/
theorem test_regwr_a_p :
    aAndP (start 0x00 0x20) 0xB00000FF = some (0xFF, 0x20) ∧ aAndP (start 0x00 0x61) 0xB5000000 = some (0x00, 0x20) := by decide

/-- REG-02 to REG-05. -/
theorem test_regwr :
    [0xB1000012#32, 0xB2000034#32, 0xB30000FD#32, 0xB400FFFF#32].map (after State.reset) =
      [{ State.reset with x := 0x12, resp := some ⟨.ok, 0x0000⟩ }, { State.reset with y := 0x34, resp := some ⟨.ok, 0x0000⟩ },
        { State.reset with sp := 0xFD, resp := some ⟨.ok, 0x0000⟩ },
        { State.reset with pc := 0xFFFF, resp := some ⟨.ok, 0x0000⟩ }].map some := by decide

/-- REG-09. -/
theorem test_reset :
    after { start 0x14 0xE3 with mem := [(0x0200, 0x55)] } 0xC0000000 =
      some { State.reset with resp := some ⟨.ok, 0x0000⟩ } := by decide

/-- 30_encoding.md R80, R81: the examples' lines. -/
theorem test_assemble :
    assemble "ADC #-1".toList = some [.adc 0xFF] ∧ assemble "SETMASK C|V, $C3".toList = some [.setmask 0x41 0xC3] ∧
      assemble "REGWR PC, $FFFF".toList = some [.regwrPC 0xFFFF] := by decide

theorem test_assemble_pseudo :
    assemble "LDA #$80".toList = some [.regwrA 0x80, .setnz 0x80] ∧ assemble "SEC".toList = some [.setmask 0x01 0x01] ∧
      assemble "JMP $1234".toList = none := by decide

/-! Witnesses: a state and operands that meet the hypotheses of a statement -/

/-- `Obligations.DecodeOfEncode`, with and without the extension commands. -/
theorem witness_decode_of_encode :
    Instr.wellFormed Config.default (.sbc 0xFF) = true ∧
      Instr.wellFormed { Config.default with extAluOps := false } (.memwrite 0xFFFF 0xAB) = true := by decide

/-- `Obligations.EncodeOfDecode`. -/
theorem witness_encode_of_decode : decode Config.default 0x90ABFFFF = .ok (.memwrite 0xFFFF 0xAB) := rfl

/-- `Obligations.DecoderAgreesWithOpcodeTable`. -/
theorem witness_table_config : Config.default.extAluOps = true := rfl

/-- `Obligations.ReservedWordRaisesIllegalCommand`: SEL = 6 and the largest reserved words. -/
theorem witness_reserved_word :
    (issued [0xB6000000]).fault = none ∧ (issued [0xB6000000]).cmds = 0xB6000000 :: [] ∧
      ReservedWord (issued [0xB6000000]).cfg 0xB6000000 ∧ ReservedWord Config.default 0xFF0000FF ∧
      ¬ ReservedWord Config.default 0xB5000000 := by
  unfold ReservedWord
  refine ⟨rfl, rfl, ?_, ?_, ?_⟩ <;> decide

/-- `Obligations.ExtensionWordsFollowParameter`: each of the three words. -/
theorem witness_extension_disabled :
    (∀ cw, (plain [cw]).cfg.extAluOps = false ∧ (plain [cw]).fault = none ∧ (plain [cw]).cmds = cw :: []) ∧
    (0xD0000003 : CmdWord) = 0xD00000#24 ++ 0x03#8 ∧ (0xE00000F0 : CmdWord) = 0xE00000#24 ++ 0xF0#8 ∧
    (0xF00000FF : CmdWord) = 0xF00000#24 ++ 0xFF#8 :=
  ⟨fun _ => ⟨rfl, rfl, rfl⟩, by decide⟩

/-- `Obligations.StepRunsDecodedCommand`. -/
theorem witness_step_runs :
    (issued [0x10000001]).fault = none ∧ (issued [0x10000001]).cmds = 0x10000001 :: [] ∧
      decode (issued [0x10000001]).cfg 0x10000001 = .ok (.adc 0x01) := ⟨rfl, rfl, rfl⟩

/-- `Obligations.HaltedCoreHasNoStep`, and the last clause of `Obligations.CreationAndResetGiveResetState`. -/
theorem witness_halted :
    haltedCore.fault = some ⟨.illegalCommand, 0x00000000⟩ ∧ haltedCore.cmds = 0xC0000000 :: [] := ⟨rfl, rfl⟩

/-- `Obligations.OnlyTheLastCommandCanFault`: two steps, the last of which faults. -/
theorem witness_last_command_faults : ∃ t, stepN (1 + 1) (issued [0x10000001, 0x00000000]) = .next t ∧ t.fault.isSome = true :=
  ⟨_, rfl, rfl⟩

/-- `Obligations.IdleCoreHoldsItsState`. -/
theorem witness_idle : State.reset.fault = none ∧ State.reset.cmds = [] := ⟨rfl, rfl⟩

/-- `Obligations.EveryCommandIsAnsweredOnce` and `Obligations.ResponseFollowsTheTable`: a command that completes, and one of each
fault. -/
theorem witness_answered :
    (∃ t, step (issued [0xA5000000]) = .next t ∧ t.fault = none) ∧
      (∃ t f, step (small [0x80004000]) = .next t ∧ t.fault = some f ∧ f.code = .boundsViolation) ∧
      ∃ t f, step (issued [0x00000000]) = .next t ∧ t.fault = some f ∧ f.code = .illegalCommand :=
  ⟨⟨_, rfl, rfl⟩, ⟨_, _, rfl, rfl, rfl⟩, ⟨_, _, rfl, rfl, rfl⟩⟩

/-- `Obligations.FaultIsPrecise`: one of each fault, from a core not halted. -/
theorem witness_faults :
    (∃ t f, (small [0x90774000]).fault = none ∧ step (small [0x90774000]) = .next t ∧ t.fault = some f) ∧
      ∃ t f, (issued [0x10000100]).fault = none ∧ step (issued [0x10000100]) = .next t ∧ t.fault = some f :=
  ⟨⟨_, _, rfl, rfl, rfl⟩, ⟨_, _, rfl, rfl, rfl⟩⟩

/-- `Obligations.OutOfRangeAccessHalts` and the bounds clauses of MEMREAD and MEMWRITE: the first invalid address, the last valid
one, and the full size. -/
theorem witness_bounds :
    (small []).cfg.memSize ≤ (0x4000 : Half).toNat ∧ (0x3FFF : Half).toNat < (small []).cfg.memSize ∧ memoryOk (small []) ∧
      State.reset.cfg.memSize = 65536 ∧ (0xFFFF : Half).toNat < State.reset.cfg.memSize := by decide

/-- `Obligations.CompleteRunIsStepsOfIssuedWords`: a complete run of two words. -/
theorem witness_complete_run :
    State.reset.cmds = [] ∧ ∃ t, hostRun [0x10000001, 0x100000FF] State.reset = .complete t ∧ t.a = 0x00 ∧ t.p = 0x23 :=
  ⟨rfl, _, rfl, by decide, by decide⟩

/-- `Obligations.ResetReplacesWholeState`: two states that differ in more than the parameters and the port. -/
theorem witness_reset_pair :
    (start 0x14 0xE3).cfg = State.reset.cfg ∧ (start 0x14 0xE3).cmds = State.reset.cmds ∧ start 0x14 0xE3 ≠ State.reset := by decide

/-- Commands for the witnesses of `Obligations.MemoryIsSequential`: a write, a RESET, a write elsewhere. -/
def writeResetWrite : List Instr := [.memwrite 0xFFFF 0xAB, .reset, .memwrite 0x0000 0x55]

/-- `Obligations.MemoryIsSequential`: the commands exist and complete, from a created core and from one that holds a byte; the
address written last, one whose write a RESET undid, and, without a RESET, one never written. -/
theorem witness_sequential :
    (∀ i ∈ writeResetWrite, i.wellFormed Config.default = true) ∧
      (∃ t, stepN writeResetWrite.length (issueAll (writeResetWrite.map encode) (State.create Config.default)) = .next t ∧
        t.fault = none) ∧
      (∃ t, memoryOk { issued (writeResetWrite.map encode ++ [0x70000000]) with mem := [(0x0200, 0x55)] } ∧
        stepN writeResetWrite.length { issued (writeResetWrite.map encode ++ [0x70000000]) with mem := [(0x0200, 0x55)] } =
          .next t ∧ t.fault = none) ∧
      lastWritten 0x0000 writeResetWrite 0x11 = 0x55 ∧ lastWritten 0xFFFF writeResetWrite 0x11 = 0x00 ∧
      lastWritten 0x0200 [.memwrite 0xFFFF 0xAB, .memwrite 0x0000 0x55] 0x11 = 0x11 :=
  ⟨by decide, ⟨_, rfl, rfl⟩, ⟨_, by decide, rfl, rfl⟩, by decide, by decide, by decide⟩

/-- `Obligations.MemreadReturnsLastWriteOfRun`: a complete run of a write, a RESET and a write; the last valid address. -/
theorem witness_host_run :
    (∀ i ∈ writeResetWrite, i.wellFormed Config.default = true) ∧
      (∃ t, hostRun (writeResetWrite.map encode) (State.create Config.default) = .complete t) ∧
      (0xFFFF : Half).toNat < Config.default.memSize := ⟨by decide, ⟨_, rfl⟩, by decide⟩

/-- `Obligations.CanonicalMemoryIsUnique`: two states, equal as they must be, one of them with a byte written and cleared. -/
theorem witness_canonical :
    memoryOk State.reset ∧ memoryOk (writeByte 0x0200 0x00 (writeByte 0x0200 0x55 State.reset)) ∧
      ∀ a : Nat, readByte State.reset a = readByte (writeByte 0x0200 0x00 (writeByte 0x0200 0x55 State.reset)) a :=
  ⟨by decide, by decide, fun _ => rfl⟩

/-- The clauses of `Obligations.AdcAddsWithCarry`, `Obligations.SbcSubtractsWithBorrow` and
`Obligations.DecimalPolicyDecidesWhetherDIsRead`: refused, not refused by the policy, not refused by D, and each carry rule. -/
theorem witness_decimal :
    ((refusing [0x10000001]).cfg.decimalPolicy = .refuse ∧ flagD (refusing [0x10000001]) = true ∧
      (refusing [0x10000001]).fault = none ∧ (refusing [0x10000001]).cmds = (0x100000#24 ++ 0x01#8) :: []) ∧
    ((refusing [0xD0000001]).cfg.extAluOps = true ∧ (refusing [0xD0000001]).cmds = (0xD00000#24 ++ 0x01#8) :: []) ∧
    ¬ ((start 0x00 0x28).cfg.decimalPolicy = .refuse ∧ flagD (start 0x00 0x28) = true) ∧
    (start 0x00 0x28).cfg.decimalPolicy = .ignore ∧ (start 0x00 0x28).cfg.adcCarryRule = .full ∧
    ¬ ((literal 0x00 0x20).cfg.decimalPolicy = .refuse ∧ flagD (literal 0x00 0x20) = true) ∧
    (literal 0x00 0x20).cfg.adcCarryRule = .literalCompare := by decide

/-- The last clause of `Obligations.DecimalPolicyDecidesWhetherDIsRead`: a command that keeps D, two that write it, a CONTAINS of
every flag but D, and ADC under IGNORE; not so the four that read D. -/
theorem witness_reads_decimal :
    (∀ i ∈ [Instr.setmask 0xF7 0xFF, .setmask 0x08 0x08, .reset, .contains 0xF7, .memread 0xFFFF],
      readsDecimal .refuse i = false) ∧
    readsDecimal .ignore (.adc 0x01) = false ∧
    ∀ i ∈ [Instr.regrdP, .contains 0x08, .adc 0x01, .sbc 0x01], readsDecimal .refuse i = true := by decide

/-- `Obligations.AdcOverflowIsSignedOverflow` and `Obligations.AdcCarryRulesCompared`: the operands on which the rules differ. -/
theorem witness_carry_rules :
    (∃ t, exec (.adc 0xFF) { start 0x50 0x21 with cfg.adcCarryRule := .full } = .next t) ∧
      (∃ u, exec (.adc 0xFF) { start 0x50 0x21 with cfg.adcCarryRule := .literalCompare } = .next u) ∧
      flagC (start 0x50 0x21) = true :=
  ⟨⟨_, rfl⟩, ⟨_, rfl⟩, by decide⟩

/-- `Obligations.ChainsCarryBetweenBytes`: programs P1 and P4 of 95_test_vectors.md. -/
theorem witness_chains :
    (flagC (start 0x00 0x21) = true ∧ ∃ t u, exec (.sbc 0x01) { start 0x00 0x21 with a := 0x00 } = .next t ∧
      exec (.sbc 0x00) { t with a := 0x10 } = .next u) ∧
    ((start 0x00 0x20).cfg.adcCarryRule = .full ∧ flagC (start 0x00 0x20) = false ∧
      ∃ t u, exec (.adc 0x01) { start 0x00 0x20 with a := 0xFF } = .next t ∧ exec (.adc 0x01) { t with a := 0x12 } = .next u) :=
  ⟨⟨by decide, _, _, rfl, rfl⟩, rfl, by decide, _, _, rfl, rfl⟩

/-- `Obligations.SignZeroTailFollowsResult`: SETNZ and AND. -/
theorem witness_tail :
    (∃ t, exec (.setnz 0x80) State.reset = .next t ∧ tailValue (.setnz 0x80) t = some 0x80) ∧
      ∃ t, exec (.and 0xFF) (start 0x00 0x20) = .next t ∧ tailValue (.and 0xFF) t = some 0x00 :=
  ⟨⟨_, rfl, rfl⟩, ⟨_, rfl, by decide⟩⟩

/-- `Obligations.ArithmeticAndRegisterCommandsNeverFault`. -/
theorem witness_no_memory_command :
    (∀ addr, Instr.adc 0xFF ≠ .memread addr) ∧ (∀ addr d, Instr.adc 0xFF ≠ .memwrite addr d) ∧ State.reset.fault = none :=
  ⟨nofun, nofun, rfl⟩

/-- The reserved words of `Obligations.RegrdAnswersTheRegister` and `Obligations.RegwrWritesTheRegister`: the ends of the reserved
selectors, and H = 1 with the first and last 8-bit register. -/
theorem witness_reserved_selectors :
    (6 ≤ (0x6 : BitVec 4).toNat ∧ 6 ≤ (0xF : BitVec 4).toNat ∧ (0x0 : BitVec 4) ≠ 4 ∧ (0x5 : BitVec 4) ≠ 4 ∧
      (0x01 : Byte) ≠ 0x00) ∧
    (issued [0xA6000000]).fault = none ∧
    (issued [0xA6000000]).cmds = (0xA#4 ++ 0x6#4 ++ 0x00#8 ++ 0x00#8 ++ 0x00#8) :: [] ∧
    (issued [0xB5000100]).cmds = (0xB#4 ++ 0x5#4 ++ 0x00#8 ++ 0x01#8 ++ 0x00#8) :: [] := by decide

/-- `Obligations.UnusedBitIsHardwiredToOne` and `Obligations.UnnamedFlagsKeepTheirValue`: a command that writes P and leaves V, from
a state in which U is stored as 0. -/
theorem witness_unnamed_flag :
    (∃ t, exec (.setnz 0x80) (start 0x00 0x41) = .next t) ∧ (namedFlags (.setnz 0x80)).getLsbD 6 = false := ⟨⟨_, rfl⟩, by decide⟩

/-- `Obligations.PcChangesOnlyByRegwrAndReset`: both ways. -/
theorem witness_pc :
    (∃ t, step (issued [0xB400FFFF]) = .next t ∧ t.pc ≠ (issued [0xB400FFFF]).pc) ∧
      ∃ t, step { issued [0xC0000000] with pc := 0x1234 } = .next t ∧ t.pc ≠ 0x1234 :=
  ⟨⟨_, rfl, by decide⟩, ⟨_, rfl, by decide⟩⟩

/-- `Obligations.RegistersChangeOnlyByTheirWriters`: each register. -/
theorem witness_registers :
    (∃ t, step (issued [0x10000001]) = .next t ∧ t.a ≠ (issued [0x10000001]).a) ∧
      (∃ t, step (issued [0xB1000012]) = .next t ∧ t.x ≠ (issued [0xB1000012]).x) ∧
      (∃ t, step (issued [0xB2000034]) = .next t ∧ t.y ≠ (issued [0xB2000034]).y) ∧
      ∃ t, step (issued [0xB30000FD]) = .next t ∧ t.sp ≠ (issued [0xB30000FD]).sp :=
  ⟨⟨_, rfl, by decide⟩, ⟨_, rfl, by decide⟩, ⟨_, rfl, by decide⟩, ⟨_, rfl, by decide⟩⟩

/-- `Obligations.MemoryChangesOnlyByMemwriteAndReset`: both ways. -/
theorem witness_memory_changes :
    (memoryOk (issued [0x90ABFFFF]) ∧ ∃ t, step (issued [0x90ABFFFF]) = .next t ∧
      readByte t 0xFFFF ≠ readByte (issued [0x90ABFFFF]) 0xFFFF) ∧
    (memoryOk { issued [0xC0000000] with mem := [(0x0200, 0x55)] } ∧
      ∃ t, step { issued [0xC0000000] with mem := [(0x0200, 0x55)] } = .next t ∧ readByte t 0x0200 ≠ 0x55) :=
  ⟨⟨by decide, _, rfl, by decide⟩, by decide, _, rfl, by decide⟩

/-- `Obligations.AluAndStatusReadNoOtherRegisterOrMemory` and `Obligations.FrameOfAluAndStatusCommands`: a status command, which is
none of the ALU commands. -/
theorem witness_alu_or_status :
    isAluOrStatus (.setmask 0x41 0xC3) = true ∧ (∃ t, exec (.setmask 0x41 0xC3) State.reset = .next t) ∧
      ∀ v, Instr.setmask 0x41 0xC3 ≠ .adc v ∧ Instr.setmask 0x41 0xC3 ≠ .and v ∧ Instr.setmask 0x41 0xC3 ≠ .sbc v ∧
        Instr.setmask 0x41 0xC3 ≠ .ora v ∧ Instr.setmask 0x41 0xC3 ≠ .eor v :=
  ⟨rfl, ⟨_, rfl⟩, fun _ => ⟨nofun, nofun, nofun, nofun, nofun⟩⟩

/-- `Obligations.ObservationsHaveNoSideEffect`. -/
theorem witness_observation :
    isObservation (.memread 0x3FFF) = true ∧ (small []).fault = none ∧
      ∃ t, exec (.memread 0x3FFF) (small []) = .next t ∧ t.fault = none := ⟨rfl, rfl, _, rfl, rfl⟩

/-- `Obligations.ParametersNeverChange`: two steps, a RESET among them. -/
theorem witness_parameters : ∃ t, stepN 2 (small [0xC0000000, 0x10000001]) = .next t := ⟨_, rfl⟩

/-- `Obligations.CreatedCoreMeetsInvariant`: the ends of the range of `MEM_SIZE`. -/
theorem witness_config :
    Config.wf { Config.default with memSize := 1 } ∧ Config.wf { Config.default with memSize := 65536 } := by decide

/-- `Obligations.StepKeepsInvariant`: steps that write memory, fault on bounds, and find a reserved word. -/
theorem witness_invariant :
    Inv (issued [0x90ABFFFF]) ∧ Inv (issued [0x00000000]) ∧ (∃ t, step (issued [0x90ABFFFF]) = .next t) ∧
      (∃ t, step (issued [0x00000000]) = .next t) ∧ Inv (small [0x80004000]) ∧ ∃ t, step (small [0x80004000]) = .next t :=
  ⟨by decide, by decide, ⟨_, rfl⟩, ⟨_, rfl⟩, by decide, ⟨_, rfl⟩⟩

end Sys2Proof.Tests
end

section
/-! PROOFS of the statements of 00_scope.md: what EXT_ALU_OPS decides, and the invariant of the core. -/

namespace Sys2Proof

/-! ### The words of the extension commands -/

/-- A word whose fields SEL, M and H are zero is decoded from its operation and its operand. -/
theorem decode_byteWord (cfg : Config) {op : BitVec 4} {q : BitVec 24} (hq : op ++ 0#4 ++ 0#8 ++ 0#8 = q) (v : Byte) :
    decode cfg (q ++ v) = decodeFields cfg ⟨op, 0#4, 0#8, 0#8, v⟩ := by
  rw [decode, ← wordOf_byte hq, fieldsOf_wordOf]

theorem decode_sbcWord (cfg : Config) (v : Byte) : decode cfg (0xD00000#24 ++ v) = whenExtension cfg (.ok (.sbc v)) :=
  decode_byteWord cfg (op := 0xD) (by decide) v

theorem decode_oraWord (cfg : Config) (v : Byte) : decode cfg (0xE00000#24 ++ v) = whenExtension cfg (.ok (.ora v)) :=
  decode_byteWord cfg (op := 0xE) (by decide) v

theorem decode_eorWord (cfg : Config) (v : Byte) : decode cfg (0xF00000#24 ++ v) = whenExtension cfg (.ok (.eor v)) :=
  decode_byteWord cfg (op := 0xF) (by decide) v

theorem whenExtension_of_disabled {cfg : Config} (h : cfg.extAluOps = false) (r : Except DecodeReject Instr) :
    whenExtension cfg r = .error .extensionDisabled := by
  simp [whenExtension, h]

end Sys2Proof

namespace Sys2Proof.Machine

/-! ### The step of a reserved word -/

/-- The step of a core not halted whose oldest word is reserved raises IllegalCommand (60_exceptions.md R202). -/
theorem step_of_decode_error {s : State} {cw : CmdWord} {rest : List CmdWord} {why : DecodeReject} (hf : s.fault = none)
    (hq : s.cmds = cw :: rest) (hd : decode s.cfg cw = .error why) :
    step s = .next (illegalFault cw { s with cmds := rest }) := by
  simp [step, acceptCommand, hf, hq, hd]

/-! ### The invariant: the latch and the response port agree -/

/-- An OK response agrees with an empty latch. -/
theorem latchOk_respond {s : State} (hf : s.fault = none) (d : Half) : latchOk (respond d s) = true := by
  simp [latchOk, hf]

/-- A bounds fault at a 16-bit address not below `MEM_SIZE` leaves latch and response in agreement. -/
theorem latchOk_boundsFault {s : State} {addr : Half} (h : s.cfg.memSize ≤ addr.toNat) :
    latchOk (boundsFault addr s) = true := by
  have hlt : addr.toNat < 65536 := addr.isLt
  simp [latchOk, h, hlt]

theorem decode?_of_error {cfg : Config} {cw : CmdWord} {why : DecodeReject} (h : decode cfg cw = .error why) :
    decode? cfg cw = none := by
  simp [decode?, h]

/-- An illegal command whose word the decoder rejects leaves latch and response in agreement. -/
theorem latchOk_illegalFault {s : State} {cw : CmdWord} {why : DecodeReject} (h : decode s.cfg cw = .error why) :
    latchOk (illegalFault cw s) = true := by
  simp [latchOk, decode?_of_error h]

/-! ### The invariant: what keeps it -/

/-- Writing a register keeps U stored as 1. -/
theorem statusOk_writeReg {s : State} (h : statusOk s) (r : Reg) (w : Half) : statusOk (writeReg r w s) := by
  cases r with
  | P => exact statusOk_writeP (byteOf w) s
  | A | X | Y | SP | PC => exact h

/-- A state with legal parameters, memory and U and no fault meets the invariant once a command has answered OK. -/
theorem inv_respond {s : State} (hc : s.cfg.wf) (hm : memoryOk s) (hp : statusOk s) (hf : s.fault = none) (d : Half) :
    Inv (respond d s) :=
  ⟨hc, hm, hp, latchOk_respond hf d⟩

/-- The reset state of a core with legal parameters meets the invariant (70_reset_and_hazards.md R230). -/
theorem inv_create {cfg : Config} (hc : cfg.wf) : Inv (State.create cfg) := by
  refine ⟨hc, ⟨?_, ?_⟩, ?_, rfl⟩
  · simp [Memory.wf]
  · simp
  · simp [statusOk]

/-- Each of the six effects of a command keeps the invariant of a core without a fault. -/
theorem Effect.keeps_inv {s t : State} (he : Effect s t) (hf : s.fault = none) (hi : Inv s) : Inv t := by
  obtain ⟨hc, hm, hp, -⟩ := hi
  cases he with
  | response d => exact inv_respond hc hm hp hf d
  | aluStatus a p hp' => exact inv_respond (s := { s with a := a, p := p }) hc hm hp' hf 0x0000
  | register r w =>
    apply inv_respond _ _ (statusOk_writeReg hp r w)
    · rwa [writeReg_fault]
    · rwa [writeReg_cfg]
    · rwa [memoryOk, writeReg_mem, writeReg_cfg]
  | store addr d h => exact inv_respond (s := writeByte (u16 addr) d s) hc (memoryOk_writeByte hm h d) hp hf 0x0000
  | bounds addr h => exact ⟨hc, hm, hp, latchOk_boundsFault h⟩
  | recreated =>
    obtain ⟨hc', hm', hp', -⟩ := inv_create hc
    exact inv_respond hc' hm' hp' rfl 0x0000

/-- Every step that answers a next state keeps the invariant. -/
theorem step_keeps_inv {s t : State} (hi : Inv s) (h : step s = .next t) : Inv t := by
  obtain ⟨hf, ⟨-, rfl⟩ | ⟨cw, rest, -, ⟨i, -, he⟩ | ⟨why, hd, rfl⟩⟩⟩ := step_next h
  · exact hi
  · -- the invariant does not speak of the words on the command port
    have hi' : Inv { s with cmds := rest } := hi
    exact (exec_effect he).keeps_inv hf hi'
  · obtain ⟨hc, hm, hp, -⟩ := hi
    exact ⟨hc, hm, hp, latchOk_illegalFault hd⟩

end Sys2Proof.Machine

namespace Sys2Proof.Proofs

open Sys2Proof.Machine

/-- Settles O53: a step holds the state, has one of the six effects of a command, or raises IllegalCommand, and each of them
keeps the invariant. -/
theorem stepKeepsInvariant : Obligations.StepKeepsInvariant :=
  fun _ _ => step_keeps_inv

/-- Settles O52: the reset state meets the invariant with any legal parameters, the defaults among them. -/
theorem createdCoreMeetsInvariant : Obligations.CreatedCoreMeetsInvariant :=
  ⟨fun _ => inv_create, inv_create (by decide)⟩

/-- Settles O7: the decoder hands each of the three words to `whenExtension`, which follows the parameter. -/
theorem extensionWordsFollowParameter : Obligations.ExtensionWordsFollowParameter := by
  refine ⟨rfl, fun cfg v h => ?_, fun s rest v cw hext hf hw hq => ?_⟩
  · simp [decode_sbcWord, decode_oraWord, decode_eorWord, h]
  · have hd : decode s.cfg cw = .error .extensionDisabled := by
      rcases hw with rfl | rfl | rfl
      · rw [decode_sbcWord, whenExtension_of_disabled hext]
      · rw [decode_oraWord, whenExtension_of_disabled hext]
      · rw [decode_eorWord, whenExtension_of_disabled hext]
    exact step_of_decode_error hf hq hd

end Sys2Proof.Proofs
end

section
/-! PROOFS of the statements of 10_state.md: the hardwired bit U, the flags a command keeps, who writes each register, the ALU
and status commands, and the parameters. -/

namespace Sys2Proof.Machine

/-! ### The memory commands, address by address -/

theorem exec_memread_valid {addr : Half} {s : State} (h : addr.toNat < s.cfg.memSize) :
    exec (.memread addr) s = .next (respond (zext16 (readByte s addr.toNat)) s) :=
  if_pos (validAddr_iff.2 h)

theorem exec_memread_invalid {addr : Half} {s : State} (h : s.cfg.memSize ≤ addr.toNat) :
    exec (.memread addr) s = .next (boundsFault addr s) :=
  if_neg (by simp [validAddr_eq_false.2 h])

theorem exec_memwrite_valid {addr : Half} {d : Byte} {s : State} (h : addr.toNat < s.cfg.memSize) :
    exec (.memwrite addr d) s = .next (respond 0x0000 (writeByte addr.toNat d s)) :=
  if_pos (validAddr_iff.2 h)

theorem exec_memwrite_invalid {addr : Half} {d : Byte} {s : State} (h : s.cfg.memSize ≤ addr.toNat) :
    exec (.memwrite addr d) s = .next (boundsFault addr s) :=
  if_neg (by simp [validAddr_eq_false.2 h])

/-! ### U as stored -/

/-- Setting U as stored does not show in the status register as read. -/
@[simp] theorem readP_writeP_self (s : State) : readP (writeP s.p s) = readP s := by
  simp [readP, BitVec.or_assoc]

/-- A state that stores U as 1 is left by setting it. -/
theorem writeP_self_of_statusOk {s : State} (h : statusOk s) : writeP s.p s = s := by
  have hp : s.p ||| hardwired = s.p := by
    apply BitVec.eq_of_getLsbD_eq
    intro i _
    have hbit := readP_getLsbD s i
    by_cases h5 : i = 5
    · subst h5
      exact (readP_five s).trans h.symm
    · rwa [decide_eq_false h5, Bool.or_false] at hbit
  exact congrArg (fun p => { s with p := p }) hp

@[simp] theorem maskedUpdate_writeP_self (m v : Byte) (s : State) : maskedUpdate m v (writeP s.p s) = maskedUpdate m v s := by
  rw [maskedUpdate, readP_writeP_self]
  rfl

@[simp] theorem nzTail_writeP_self (r : Byte) (s : State) : nzTail r (writeP s.p s) = nzTail r s :=
  maskedUpdate_writeP_self _ _ s

@[simp] theorem removeFlags_writeP_self (m : Byte) (s : State) : removeFlags m (writeP s.p s) = removeFlags m s := by
  rw [removeFlags, readP_writeP_self]
  rfl

@[simp] theorem finishLogic_writeP_self (r : Byte) (s : State) : finishLogic r (writeP s.p s) = finishLogic r s := by
  rw [finishLogic, nzTail_writeP_self]
  rfl

@[simp] theorem finishArith_writeP_self (r : Byte) (c v : Bool) (s : State) :
    finishArith r c v (writeP s.p s) = finishArith r c v s := by
  rw [finishArith, nzTail_writeP_self]
  rfl

@[simp] theorem flagC_writeP_self (s : State) : flagC (writeP s.p s) = flagC s := by
  rw [flagC, readP_writeP_self]
  rfl

@[simp] theorem carry_writeP_self (s : State) : carry (writeP s.p s) = carry s := by
  rw [carry, flagC_writeP_self]
  rfl

@[simp] theorem decimalRefused_writeP_self (s : State) : decimalRefused (writeP s.p s) = decimalRefused s := by
  rw [decimalRefused, flagD, readP_writeP_self]
  rfl

@[simp] theorem containsAll_writeP_self (m : Byte) (s : State) : containsAll m (writeP s.p s) = containsAll m s := by
  rw [containsAll, readP_writeP_self]
  rfl

/-- The reset state stores U as 1 (10_state.md R35). -/
theorem statusOk_recreate (s : State) : statusOk (recreate s) := by
  simp [statusOk]

/-- CONTAINS U answers 1 in every state (10_state.md R28). -/
theorem containsAll_maskU (s : State) : containsAll maskU s = true := by
  have h : readP s &&& maskU = maskU := by
    simp only [readP, hardwired, maskU]
    ext i
    grind
  rw [containsAll, h]
  exact beq_self_eq_true maskU

/-- A command that writes P stores U as 1. -/
theorem Effect.p_eq_or_statusOk {s t : State} (he : Effect s t) : t.p = s.p ∨ statusOk t := by
  cases he with
  | response d => exact .inl rfl
  | aluStatus a p hp => exact .inr hp
  | register r w =>
    cases r with
    | P => exact .inr (statusOk_writeP (byteOf w) s)
    | A | X | Y | SP | PC => exact .inl rfl
  | store addr d _ => exact .inl rfl
  | bounds addr _ => exact .inl rfl
  | recreated => exact .inr (statusOk_recreate s)

/-- A command that does the same whatever is stored as U, and stores it as 1. -/
theorem exec_writeP_of_eq {i : Instr} {s t : State} (heq : exec i (writeP s.p s) = exec i s) (ht : statusOk t)
    (h : exec i s = .next t) : exec i (writeP s.p s) = .next (writeP t.p t) := by
  rw [heq, h, writeP_self_of_statusOk ht]

/-- The same answer, whatever is stored as U. -/
theorem respond_writeP_of_eq {s : State} {d e : Half} (h : d = e) :
    (.next (respond d (writeP s.p s)) : Result) = .next (writeP (respond e s).p (respond e s)) := by
  rw [h]
  rfl

/-- No command can tell what is stored as U: with U set before, it does the same but for U as stored. The commands that write P
overwrite it, and the others carry it along. -/
theorem exec_writeP_self {i : Instr} {s t : State} (h : exec i s = .next t) :
    exec i (writeP s.p s) = .next (writeP t.p t) := by
  cases i with
  | adc v =>
    refine exec_writeP_of_eq (by simp [exec, execAdc]) ?_ h
    obtain ⟨-, rfl⟩ := exec_adc_next h
    exact (statusOk_finish _ _ _ s).1
  | sbc v =>
    refine exec_writeP_of_eq (by simp [exec, execSbc]) ?_ h
    obtain ⟨-, rfl⟩ := exec_sbc_next h
    exact (statusOk_finish _ _ _ s).1
  | and v | ora v | eor v =>
    refine exec_writeP_of_eq (by simp [exec, execAnd, execOra, execEor]) ?_ h
    cases h
    exact (statusOk_finish _ false false s).2
  | setnz v | setmask m v | remove m =>
    refine exec_writeP_of_eq (by simp [exec, execSetnz, execSetmask, execRemove]) ?_ h
    cases h
    exact statusOk_writeP _ s
  | regwrP v =>
    refine exec_writeP_of_eq rfl ?_ h
    cases h
    exact statusOk_writeP (byteOf (zext16 v)) s
  | reset =>
    refine exec_writeP_of_eq rfl ?_ h
    cases h
    exact statusOk_recreate s
  | contains m =>
    cases h
    exact respond_writeP_of_eq (congrArg bit16 (containsAll_writeP_self m s))
  | getcarry =>
    cases h
    exact respond_writeP_of_eq (congrArg bit16 (flagC_writeP_self s))
  | regrdP =>
    cases h
    exact respond_writeP_of_eq (congrArg zext16 (readP_writeP_self s))
  | memread addr =>
    obtain ⟨hv, rfl⟩ | ⟨hv, rfl⟩ := exec_memread_next h
    · exact exec_memread_valid hv
    · exact exec_memread_invalid hv
  | memwrite addr d =>
    obtain ⟨hv, rfl⟩ | ⟨hv, rfl⟩ := exec_memwrite_next h
    · exact exec_memwrite_valid hv
    · exact exec_memwrite_invalid hv
  | regrdA | regrdX | regrdY | regrdSP | regrdPC | regwrA | regwrX | regwrY | regwrSP | regwrPC =>
    cases h
    rfl

/-! ### The flags a command keeps -/

/-- The masked update keeps every flag outside its mask, U among them (40_status_ops.md R105). -/
theorem readP_maskedUpdate_outside {m : Byte} (v : Byte) (s : State) {k : Nat} (hk : k < 8) (hm : m.getLsbD k = false) :
    (readP (maskedUpdate m v s)).getLsbD k = (readP s).getLsbD k := by
  by_cases h5 : k = 5
  · rw [h5, readP_five, readP_five]
  · simp [readP_maskedUpdate m v s hk h5, hm]

/-- REMOVE keeps every flag outside its operand, U among them (40_status_ops.md R113). -/
theorem readP_removeFlags_outside {m : Byte} (s : State) {k : Nat} (hk : k < 8) (hm : m.getLsbD k = false) :
    (readP (removeFlags m s)).getLsbD k = (readP s).getLsbD k := by
  by_cases h5 : k = 5
  · rw [h5, readP_five, readP_five]
  · simp [readP_removeFlags m s hk h5, hm]

/-- The sign/zero tail keeps every flag but N and Z. -/
theorem readP_nzTail_outside (r : Byte) (s : State) {k : Nat} (hk : k < 8) (hm : (maskN ||| maskZ).getLsbD k = false) :
    (readP (nzTail r s)).getLsbD k = (readP s).getLsbD k :=
  readP_maskedUpdate_outside _ s hk hm

/-- ADC and SBC keep every flag but N, V, Z and C. -/
theorem readP_finishArith_outside (r : Byte) (c v : Bool) (s : State) {k : Nat} (hk : k < 8)
    (hm : ((maskC ||| maskV) ||| (maskN ||| maskZ)).getLsbD k = false) :
    (readP (finishArith r c v s)).getLsbD k = (readP s).getLsbD k := by
  rw [BitVec.getLsbD_or, Bool.or_eq_false_iff] at hm
  obtain ⟨hcv, hnz⟩ := hm
  exact (readP_maskedUpdate_outside _ (nzTail r s) hk hcv).trans (readP_nzTail_outside r s hk hnz)

/-- No flag lies outside the mask of all flags. -/
theorem getLsbD_allFlags {k : Nat} (hk : k < 8) : (0xFF : Byte).getLsbD k = true :=
  (BitVec.getLsbD_allOnes (v := 8)).trans (decide_eq_true hk)

/-- A flag that a command does not name keeps its value (10_state.md R29). -/
theorem exec_keeps_unnamed_flag {i : Instr} {s t : State} (h : exec i s = .next t) {k : Nat} (hk : k < 8)
    (hn : (namedFlags i).getLsbD k = false) : (readP t).getLsbD k = (readP s).getLsbD k := by
  cases i with
  | adc v =>
    obtain ⟨-, rfl⟩ := exec_adc_next h
    exact readP_finishArith_outside _ _ _ s hk hn
  | sbc v =>
    obtain ⟨-, rfl⟩ := exec_sbc_next h
    exact readP_finishArith_outside _ _ _ s hk hn
  | and | ora | eor | setnz =>
    cases h
    exact readP_nzTail_outside _ s hk hn
  | setmask m v =>
    cases h
    exact readP_maskedUpdate_outside v s hk hn
  | remove m =>
    cases h
    exact readP_removeFlags_outside s hk hn
  | regwrP | reset => exact absurd ((getLsbD_allFlags hk).symm.trans hn) (by decide)
  | memread addr => obtain ⟨-, rfl⟩ | ⟨-, rfl⟩ := exec_memread_next h <;> rfl
  | memwrite addr d => obtain ⟨-, rfl⟩ | ⟨-, rfl⟩ := exec_memwrite_next h <;> rfl
  | contains | getcarry | regrdA | regrdX | regrdY | regrdSP | regrdPC | regrdP | regwrA | regwrX | regwrY | regwrSP | regwrPC =>
    cases h
    rfl

/-! ### The ALU and status commands -/

/-- An ALU or status command that completes writes A and P, and answers. -/
theorem aluOrStatus_next {i : Instr} {s t : State} (hi : isAluOrStatus i = true) (h : exec i s = .next t) :
    ∃ (a p : Byte) (d : Half), t = respond d { s with a := a, p := p } := by
  cases i with
  | adc v =>
    obtain ⟨-, rfl⟩ := exec_adc_next h
    exact ⟨_, _, _, rfl⟩
  | sbc v =>
    obtain ⟨-, rfl⟩ := exec_sbc_next h
    exact ⟨_, _, _, rfl⟩
  | and | ora | eor | setnz | setmask | contains | remove | getcarry =>
    cases h
    exact ⟨_, _, _, rfl⟩
  | memread | memwrite | regrdA | regrdX | regrdY | regrdSP | regrdPC | regrdP | regwrA | regwrX | regwrY | regwrSP | regwrPC
  | regwrP | reset => cases hi

/-- An ALU or status command reads none of X, Y, SP, PC and memory. -/
theorem aluOrStatus_reads_no_other_register {i : Instr} {s t : State} (hi : isAluOrStatus i = true) (h : exec i s = .next t)
    (x y sp : Byte) (pc : Half) (m : Memory) :
    exec i { s with x := x, y := y, sp := sp, pc := pc, mem := m } =
      .next { t with x := x, y := y, sp := sp, pc := pc, mem := m } := by
  cases i with
  | adc v =>
    obtain ⟨hr, rfl⟩ := exec_adc_next h
    exact exec_adc hr
  | sbc v =>
    obtain ⟨hr, rfl⟩ := exec_sbc_next h
    exact exec_sbc hr
  | and | ora | eor | setnz | setmask | contains | remove | getcarry =>
    cases h
    rfl
  | memread | memwrite | regrdA | regrdX | regrdY | regrdSP | regrdPC | regrdP | regwrA | regwrX | regwrY | regwrSP | regwrPC
  | regwrP | reset => cases hi

/-! ### Who writes a register -/

/-- A is written by the ALU commands, REGWR.A and RESET, and kept by every other command (10_state.md R22). -/
theorem exec_a_kept_or_written {i : Instr} {s t : State} (h : exec i s = .next t) :
    t.a = s.a ∨ (∃ v, i = .adc v ∨ i = .and v ∨ i = .sbc v ∨ i = .ora v ∨ i = .eor v ∨ i = .regwrA v) ∨ i = .reset := by
  cases i with
  | adc v | and v | sbc v | ora v | eor v | regwrA v => exact .inr (.inl ⟨v, by simp⟩)
  | reset => exact .inr (.inr rfl)
  | memread addr => obtain ⟨-, rfl⟩ | ⟨-, rfl⟩ := exec_memread_next h <;> exact .inl rfl
  | memwrite addr d => obtain ⟨-, rfl⟩ | ⟨-, rfl⟩ := exec_memwrite_next h <;> exact .inl rfl
  | setnz | setmask | contains | remove | getcarry | regrdA | regrdX | regrdY | regrdSP | regrdPC | regrdP | regwrX | regwrY
  | regwrSP | regwrPC | regwrP =>
    cases h
    exact .inl rfl

/-- Each of X, Y, SP and PC is written, with its whole operand, by its own REGWR, and by RESET, and kept by every other command
(10_state.md R23, R24, R26). -/
structure RegistersKeptOrWritten (i : Instr) (s t : State) : Prop where
  x : t.x = s.x ∨ i = .regwrX t.x ∨ i = .reset
  y : t.y = s.y ∨ i = .regwrY t.y ∨ i = .reset
  sp : t.sp = s.sp ∨ i = .regwrSP t.sp ∨ i = .reset
  pc : t.pc = s.pc ∨ i = .regwrPC t.pc ∨ i = .reset

theorem exec_registersKeptOrWritten {i : Instr} {s t : State} (h : exec i s = .next t) : RegistersKeptOrWritten i s t := by
  cases i with
  | adc | and | sbc | ora | eor | setnz | setmask | contains | remove | getcarry =>
    obtain ⟨a, p, d, rfl⟩ := aluOrStatus_next rfl h
    exact ⟨.inl rfl, .inl rfl, .inl rfl, .inl rfl⟩
  | memread addr =>
    obtain ⟨-, rfl⟩ | ⟨-, rfl⟩ := exec_memread_next h <;> exact ⟨.inl rfl, .inl rfl, .inl rfl, .inl rfl⟩
  | memwrite addr d =>
    obtain ⟨-, rfl⟩ | ⟨-, rfl⟩ := exec_memwrite_next h <;> exact ⟨.inl rfl, .inl rfl, .inl rfl, .inl rfl⟩
  | regrdA | regrdX | regrdY | regrdSP | regrdPC | regrdP | regwrA | regwrP =>
    cases h
    exact ⟨.inl rfl, .inl rfl, .inl rfl, .inl rfl⟩
  | regwrX v | regwrY v | regwrSP v | regwrPC w =>
    cases h
    constructor <;> simp
  | reset => exact ⟨.inr (.inr rfl), .inr (.inr rfl), .inr (.inr rfl), .inr (.inr rfl)⟩

/-- What is true of every command that changes a part `f` of the state is true of the oldest word's command when a step changes
`f`: taking the word off the port and raising IllegalCommand leave `f`. -/
theorem step_changed_by_writer {α : Type} (f : State → α) {s t : State} {W : Instr → Prop}
    (hport : ∀ s q, f { s with cmds := q } = f s) (hillegal : ∀ s cw, f (illegalFault cw s) = f s)
    (hexec : ∀ i u, exec i u = .next t → f t = f u ∨ W i) (h : step s = .next t) (hne : f t ≠ f s) :
    ∃ cw rest, s.cmds = cw :: rest ∧ ∃ i, decode s.cfg cw = .ok i ∧ W i := by
  obtain ⟨-, ⟨-, rfl⟩ | ⟨cw, rest, hq, ⟨i, hd, he⟩ | ⟨why, -, rfl⟩⟩⟩ := step_next h
  · exact absurd rfl hne
  · refine ⟨cw, rest, hq, i, hd, (hexec i _ he).resolve_left ?_⟩
    rwa [hport s rest]
  · exact absurd ((hillegal _ cw).trans (hport s rest)) hne

/-! ### The parameters -/

theorem Effect.cfg_eq {s t : State} (he : Effect s t) : t.cfg = s.cfg := by
  cases he with
  | response | aluStatus | store | bounds | recreated => rfl
  | register r w => exact writeReg_cfg r w s

theorem step_cfg {s t : State} (h : step s = .next t) : t.cfg = s.cfg := by
  obtain ⟨-, ⟨-, rfl⟩ | ⟨cw, rest, -, ⟨i, -, he⟩ | ⟨why, -, rfl⟩⟩⟩ := step_next h
  · rfl
  · exact (exec_effect he).cfg_eq
  · rfl

/-- INVERSION of `n + 1` steps: one step, then `n`. -/
theorem stepN_succ_next {n : Nat} {s t : State} (h : stepN (n + 1) s = .next t) :
    ∃ u, step s = .next u ∧ stepN n u = .next t := by
  unfold stepN at h
  split at h
  · next u hu => exact ⟨u, hu, h⟩
  · cases h
  · cases h

theorem stepN_cfg {n : Nat} {s t : State} (h : stepN n s = .next t) : t.cfg = s.cfg := by
  induction n generalizing s with
  | zero =>
    cases h
    rfl
  | succ n ih =>
    obtain ⟨u, hu, ht⟩ := stepN_succ_next h
    exact (ih ht).trans (step_cfg hu)

end Sys2Proof.Machine

namespace Sys2Proof.Proofs

open Sys2Proof.Machine

/-- Settles O42: every write of P stores U as 1, every read of P sees it as 1, so no command can tell what was stored. -/
theorem unusedBitIsHardwiredToOne : Obligations.UnusedBitIsHardwiredToOne := by
  refine ⟨fun i s t h => (exec_effect h).p_eq_or_statusOk, fun s => ⟨⟨zext16 (readP s), rfl, ?_⟩, ?_⟩,
    fun i s t => exec_writeP_self⟩
  · simp [zext16]
  · exact congrArg (fun b => Host.Outcome.next (respond (bit16 b) s)) (containsAll_maskU s)

/-- Settles O43: a command writes P through its named flags only. -/
theorem unnamedFlagsKeepTheirValue : Obligations.UnnamedFlagsKeepTheirValue :=
  fun _ _ _ h _ hk hn => exec_keeps_unnamed_flag h hk hn

/-- Settles O44: only the oldest word's command can change PC at a step, and only as REGWR.PC or RESET. -/
theorem pcChangesOnlyByRegwrAndReset : Obligations.PcChangesOnlyByRegwrAndReset := by
  intro s t h hne
  obtain ⟨cw, rest, hq, i, hd, rfl | rfl⟩ :=
    step_changed_by_writer State.pc (fun _ _ => rfl) (fun _ _ => rfl) (fun _ _ he => (exec_registersKeptOrWritten he).pc) h hne
  · exact ⟨cw, rest, hq, .inl ⟨t.pc, hd, rfl⟩⟩
  · exact ⟨cw, rest, hq, .inr hd⟩

/-- Settles O45: only the oldest word's command can change a register at a step, and only as a writer of that register. -/
theorem registersChangeOnlyByTheirWriters : Obligations.RegistersChangeOnlyByTheirWriters :=
  fun _ _ h =>
    ⟨step_changed_by_writer State.a (fun _ _ => rfl) (fun _ _ => rfl) (fun _ _ => exec_a_kept_or_written) h,
      step_changed_by_writer State.x (fun _ _ => rfl) (fun _ _ => rfl) (fun _ _ he => (exec_registersKeptOrWritten he).x) h,
      step_changed_by_writer State.y (fun _ _ => rfl) (fun _ _ => rfl) (fun _ _ he => (exec_registersKeptOrWritten he).y) h,
      step_changed_by_writer State.sp (fun _ _ => rfl) (fun _ _ => rfl) (fun _ _ he => (exec_registersKeptOrWritten he).sp) h⟩

/-- Settles O47: each ALU and status command takes its operands from A, P and the parameters. -/
theorem aluAndStatusReadNoOtherRegisterOrMemory : Obligations.AluAndStatusReadNoOtherRegisterOrMemory :=
  fun _ _ _ x y sp pc m hi h => aluOrStatus_reads_no_other_register hi h x y sp pc m

/-- Settles O48: an ALU or status command writes A, P and the response port, and A only as an ALU command. -/
theorem frameOfAluAndStatusCommands : Obligations.FrameOfAluAndStatusCommands := by
  intro i s t hi h
  have ha := exec_a_kept_or_written h
  obtain ⟨a, p, d, rfl⟩ := aluOrStatus_next hi h
  refine ⟨rfl, rfl, rfl, rfl, fun _ => rfl, rfl, rfl, rfl, fun hno => ha.resolve_right ?_⟩
  rintro (⟨v, hv⟩ | rfl)
  · obtain ⟨hadc, hand, hsbc, hora, heor⟩ := hno v
    obtain rfl | rfl | rfl | rfl | rfl | rfl := hv <;> contradiction
  · cases hi

/-- Settles O51, by induction on the number of steps. -/
theorem parametersNeverChange : Obligations.ParametersNeverChange :=
  fun _ _ _ => stepN_cfg

end Sys2Proof.Proofs
end

section
/-! PROOFS of the statements of 20_memory.md: what an access out of range does, who changes a byte, and what a byte holds after
the commands of a run. -/

namespace Sys2Proof

/-- The word of a command that exists decodes to the command (30_encoding.md R79). -/
theorem decode_encode {cfg : Config} {i : Instr} (h : i.wellFormed cfg = true) : decode cfg (encode i) = .ok i := by
  rw [decode, encode, fieldsOf_wordOf]
  cases i with
  | memread addr => exact congrArg (Except.ok ∘ Instr.memread) (highByte_append_lowByte addr)
  | memwrite addr d => exact congrArg (Except.ok ∘ (Instr.memwrite · d)) (highByte_append_lowByte addr)
  | regwrPC w => exact congrArg (Except.ok ∘ Instr.regwrPC) (highByte_append_lowByte w)
  | contains | remove => simp [decodeFields, encodeFields]
  | sbc v | ora v | eor v => exact if_pos h
  | adc | and | setnz | setmask | getcarry | regrdA | regrdX | regrdY | regrdSP | regrdPC | regrdP | regwrA | regwrX | regwrY
  | regwrSP | regwrP | reset => rfl

end Sys2Proof

namespace Sys2Proof.Machine

/-! ### Steps: a halted core, and a core with a command's word on the port -/

/-- A halted core has no step (60_exceptions.md R205). -/
theorem step_of_fault {s : State} {latch : FaultRecord} (h : s.fault = some latch) : step s = .fault (.halted latch) := by
  simp [step, acceptCommand, h]

/-- The step that takes the word of a command that exists runs the command. -/
theorem exec_of_step_encode {i : Instr} {s t : State} {rest : List CmdWord} (hw : i.wellFormed s.cfg = true)
    (hq : s.cmds = encode i :: rest) (h : step s = .next t) : exec i { s with cmds := rest } = .next t := by
  obtain ⟨-, ⟨hq', -⟩ | ⟨cw, rest', hq', hcw⟩⟩ := step_next h
  · simp [hq] at hq'
  · obtain ⟨rfl, rfl⟩ := List.cons.inj (hq.symm.trans hq')
    rw [decode_encode hw] at hcw
    obtain ⟨j, hj, he⟩ | ⟨why, hd, -⟩ := hcw
    · cases hj
      exact he
    · cases hd

/-- A core that ends its steps without a fault had none before them. -/
theorem fault_eq_none_of_stepN {n : Nat} {s t : State} (h : stepN n s = .next t) (hf : t.fault = none) : s.fault = none := by
  cases n with
  | zero =>
    cases h
    exact hf
  | succ n =>
    obtain ⟨u, hu, -⟩ := stepN_succ_next h
    exact (step_next hu).1

/-- INVERSION of a complete run of one more word: the step of the word, then the run of the rest. -/
theorem hostRun_cons_complete {cw : CmdWord} {words : List CmdWord} {s t : State} (h : hostRun (cw :: words) s = .complete t) :
    ∃ u, step (issueNext cw s) = .next u ∧ hostRun words u = .complete t := by
  unfold hostRun at h
  split at h
  · next u hu => exact ⟨u, hu, h⟩
  · cases h
  · cases h

/-- INVERSION of a complete run of no word: the core is not halted and stays as it is. -/
theorem hostRun_nil_complete {s t : State} (h : hostRun [] s = .complete t) : s.fault = none ∧ s = t := by
  unfold hostRun at h
  split at h
  · cases h
  · next hf =>
    cases h
    exact ⟨by simpa using hf, rfl⟩

/-- A core whose run completes is not halted. -/
theorem fault_eq_none_of_hostRun {words : List CmdWord} {s t : State} (h : hostRun words s = .complete t) : s.fault = none := by
  cases words with
  | nil => exact (hostRun_nil_complete h).1
  | cons cw words =>
    obtain ⟨u, hu, -⟩ := hostRun_cons_complete h
    exact (step_next hu).1

/-! ### What a command does to memory -/

/-- The three things a command can do to memory. -/
inductive MemoryEffect (s : State) : Instr → State → Prop where
  /-- MEMWRITE in range. -/
  | stored (addr : Half) (d : Byte) (h : addr.toNat < s.cfg.memSize) :
      MemoryEffect s (.memwrite addr d) (respond 0x0000 (writeByte addr.toNat d s))
  /-- RESET. -/
  | cleared : MemoryEffect s .reset (respond 0x0000 (recreate s))
  /-- Any other command, and one that faults: memory is as before, and without a fault `byteAfter` says so too. -/
  | kept {i : Instr} {t : State} (hm : t.mem = s.mem) (hb : t.fault = none → ∀ addr b, byteAfter addr i b = b) :
      MemoryEffect s i t

/-- INVERSION: every command that answers a next state has one of the three effects on memory (20_memory.md R54). -/
theorem exec_memoryEffect {i : Instr} {s t : State} (h : exec i s = .next t) : MemoryEffect s i t := by
  cases i with
  | memwrite addr d =>
    obtain ⟨hv, rfl⟩ | ⟨-, rfl⟩ := exec_memwrite_next h
    · exact .stored addr d hv
    · exact .kept rfl nofun
  | reset =>
    cases h
    exact .cleared
  | memread addr => obtain ⟨-, rfl⟩ | ⟨-, rfl⟩ := exec_memread_next h <;> exact .kept rfl fun _ _ _ => rfl
  | adc | and | sbc | ora | eor | setnz | setmask | contains | remove | getcarry =>
    obtain ⟨a, p, d, rfl⟩ := aluOrStatus_next rfl h
    exact .kept rfl fun _ _ _ => rfl
  | regrdA | regrdX | regrdY | regrdSP | regrdPC | regrdP | regwrA | regwrX | regwrY | regwrSP | regwrPC | regwrP =>
    cases h
    exact .kept rfl fun _ _ _ => rfl

/-- A byte is as before, or was written by a MEMWRITE to its valid address, or was cleared by RESET. -/
theorem MemoryEffect.byte_kept_or_written {i : Instr} {s t : State} (he : MemoryEffect s i t) (hm : memoryOk s) (a : Nat) :
    readByte t a = readByte s a ∨
      (∃ addr : Half, i = .memwrite addr (readByte t a) ∧ addr.toNat = a ∧ a < s.cfg.memSize) ∨
      (i = .reset ∧ readByte t a = 0x00) := by
  cases he with
  | stored addr d hv =>
    have hr : readByte (respond 0x0000 (writeByte addr.toNat d s)) a = if a = addr.toNat then d else readByte s a :=
      readByte_writeByte hm.1 addr.toNat d a
    rw [hr]
    split
    · next ha => exact .inr (.inl ⟨addr, rfl, ha.symm, ha ▸ hv⟩)
    · exact .inl rfl
  | cleared => exact .inr (.inr ⟨rfl, rfl⟩)
  | kept hk _ => exact .inl (congrArg (memGet · a) hk)

/-- Without a fault a byte is what `byteAfter` says. -/
theorem MemoryEffect.readByte_eq {i : Instr} {s t : State} (he : MemoryEffect s i t) (hm : memoryOk s) (hf : t.fault = none)
    (addr : Half) : readByte t addr.toNat = byteAfter addr i (readByte s addr.toNat) := by
  cases he with
  | stored target d _ =>
    refine (readByte_writeByte hm.1 target.toNat d addr.toNat).trans ?_
    simp only [byteAfter, BitVec.toNat_inj, eq_comm (a := addr)]
  | cleared => rfl
  | kept hk hb => exact (congrArg (memGet · addr.toNat) hk).trans (hb hf addr _).symm

/-- A core as it is created lists no byte of memory. -/
theorem memoryOk_create (cfg : Config) : memoryOk (State.create cfg) := ⟨⟨.nil, nofun⟩, nofun⟩

/-- A command keeps memory canonical and within `MEM_SIZE`. -/
theorem Effect.keeps_memoryOk {s t : State} (he : Effect s t) (hm : memoryOk s) : memoryOk t := by
  cases he with
  | response | aluStatus | bounds => exact hm
  | register r w => rwa [memoryOk, respond_mem, respond_cfg, writeReg_mem, writeReg_cfg]
  | store addr d h => exact memoryOk_writeByte hm h d
  | recreated => exact memoryOk_create s.cfg

/-- A command leaves the words waiting on the port (log 1, log 16). -/
theorem Effect.cmds_eq {s t : State} (he : Effect s t) : t.cmds = s.cmds := by
  cases he with
  | response | aluStatus | store | bounds | recreated => rfl
  | register r w => exact writeReg_cmds r w s

/-! ### Memory after the commands of a run -/

/-- From `s` to `t` each byte became what the commands `is` make of it, under the same parameters (20_memory.md R61). -/
structure MemoryAfter (is : List Instr) (s t : State) : Prop where
  cfg_eq : t.cfg = s.cfg
  readByte_eq (addr : Half) : readByte t addr.toNat = lastWritten addr is (readByte s addr.toNat)

theorem MemoryAfter.nil (s : State) : MemoryAfter [] s s := ⟨rfl, fun _ => rfl⟩

/-- One command that completes, whatever words `q` wait behind it, then the rest. -/
theorem MemoryAfter.cons {i : Instr} {is : List Instr} {q : List CmdWord} {s u t : State} (hm : memoryOk s)
    (he : exec i { s with cmds := q } = .next u) (hf : u.fault = none) (h : MemoryAfter is u t) : MemoryAfter (i :: is) s t where
  cfg_eq := h.cfg_eq.trans (exec_effect he).cfg_eq
  readByte_eq addr := (h.readByte_eq addr).trans
    (congrArg (lastWritten addr is) ((exec_memoryEffect he).readByte_eq hm hf addr))

/-- MEMREAD of a valid address after the commands answers the byte they leave there (41_memory_ops.md R130). -/
theorem MemoryAfter.exec_memread {is : List Instr} {s t : State} (h : MemoryAfter is s t) {addr : Half}
    (ha : addr.toNat < s.cfg.memSize) :
    exec (.memread addr) t =
      .next { t with resp := some ⟨.ok, (lastWritten addr is (readByte s addr.toNat)).setWidth 16⟩ } := by
  rw [← h.cfg_eq] at ha
  rw [exec_memread_valid ha, h.readByte_eq addr]
  rfl

/-- Steps over the words of commands that complete, by induction on the commands. -/
theorem memoryAfter_of_stepN {is : List Instr} {rest : List CmdWord} {s t : State} (hw : ∀ i ∈ is, i.wellFormed s.cfg = true)
    (hm : memoryOk s) (hq : s.cmds = is.map encode ++ rest) (h : stepN is.length s = .next t) (hf : t.fault = none) :
    MemoryAfter is s t := by
  induction is generalizing s with
  | nil =>
    cases h
    exact .nil _
  | cons i is ih =>
    obtain ⟨hwi, hwis⟩ := List.forall_mem_cons.1 hw
    obtain ⟨u, hu, ht⟩ := stepN_succ_next h
    have he := exec_of_step_encode hwi hq hu
    have hte := exec_effect he
    have hrest : MemoryAfter is u t := ih (hte.cfg_eq ▸ hwis) (hte.keeps_memoryOk hm) hte.cmds_eq ht
    exact .cons hm he (fault_eq_none_of_stepN ht hf) hrest

/-- The complete run of a host that issues the words of commands one at a time, by induction on the commands. -/
theorem memoryAfter_of_hostRun {is : List Instr} {s t : State} (hw : ∀ i ∈ is, i.wellFormed s.cfg = true) (hm : memoryOk s)
    (h : hostRun (is.map encode) s = .complete t) : MemoryAfter is s t := by
  induction is generalizing s with
  | nil =>
    obtain ⟨-, rfl⟩ := hostRun_nil_complete h
    exact .nil _
  | cons i is ih =>
    obtain ⟨hwi, hwis⟩ := List.forall_mem_cons.1 hw
    obtain ⟨u, hu, ht⟩ := hostRun_cons_complete h
    have he : exec i s = .next u := exec_of_step_encode (s := issueNext (encode i) s) hwi rfl hu
    have hte := exec_effect he
    exact .cons hm he (fault_eq_none_of_hostRun ht) (ih (hte.cfg_eq ▸ hwis) (hte.keeps_memoryOk hm) ht)

end Sys2Proof.Machine

namespace Sys2Proof.Proofs

open Sys2Proof.Machine

/-- Settles O15: out of range both commands raise the bounds fault, which halts the core, and no 16-bit address is out of the
range of 65536 bytes. -/
theorem outOfRangeAccessHalts : Obligations.OutOfRangeAccessHalts := by
  refine ⟨fun s addr i ha hi => ⟨boundsFault addr s, ?_, rfl, step_of_fault rfl⟩, fun s addr d hs => ?_⟩
  · obtain rfl | ⟨d, rfl⟩ := hi
    · exact exec_memread_invalid ha
    · exact exec_memwrite_invalid ha
  · have ha : addr.toNat < s.cfg.memSize := hs ▸ addr.isLt
    exact ⟨⟨_, exec_memread_valid ha, rfl⟩, ⟨_, exec_memwrite_valid ha, rfl⟩⟩

/-- Settles O28: the canonical form lists exactly the bytes that do not read as unlisted, in one order. -/
theorem canonicalMemoryIsUnique : Obligations.CanonicalMemoryIsUnique :=
  fun _ _ hs ht h => memory_ext hs.1 ht.1 h

/-- Settles O46: only the oldest word's command can change a byte at a step, and only as a MEMWRITE to it or RESET. -/
theorem memoryChangesOnlyByMemwriteAndReset : Obligations.MemoryChangesOnlyByMemwriteAndReset := by
  intro s t a hm h hne
  obtain ⟨-, ⟨-, rfl⟩ | ⟨cw, rest, hq, ⟨i, hd, he⟩ | ⟨why, -, rfl⟩⟩⟩ := step_next h
  · exact absurd rfl hne
  · refine ⟨cw, rest, hq, ?_⟩
    obtain hk | ⟨addr, rfl, ha, hv⟩ | ⟨rfl, h0⟩ := (exec_memoryEffect he).byte_kept_or_written hm a
    · exact absurd hk hne
    · exact .inl ⟨addr, hd, ha, hv⟩
    · exact .inr ⟨hd, h0⟩
  · exact absurd rfl hne

/-- Settles O27, by induction on the commands from any canonical state; a created core lists no byte. -/
theorem memoryIsSequential : Obligations.MemoryIsSequential := by
  refine ⟨fun is rest s t addr hw hm hq h hf ha => (memoryAfter_of_stepN hw hm hq h hf).exec_memread ha,
    fun is cfg t addr hw h hf ha => ?_⟩
  have hafter := memoryAfter_of_stepN (rest := []) (s := issueAll (is.map encode) (State.create cfg)) hw (memoryOk_create cfg)
    (List.append_nil _).symm h hf
  exact hafter.exec_memread ha

/-- Settles O54, by induction on the commands the host issues from the core's creation. -/
theorem memreadReturnsLastWriteOfRun : Obligations.MemreadReturnsLastWriteOfRun :=
  fun _ cfg _ _ hw h ha => (memoryAfter_of_hostRun hw (memoryOk_create cfg) h).exec_memread ha

end Sys2Proof.Proofs
end

section
/-! PROOFS of the statements of 30_encoding.md: the decoder against the encoder, the reserved words and the opcode table, the
answer to an issued word, and a host that issues its words one at a time or all at once. -/

namespace Sys2Proof

open Machine (ReservedWord)

/-! ### A word that decodes is the word of its command -/

/-- The number of a field names the field. -/
theorem eq_ofNat_of_toNat_eq {w n : Nat} {x : BitVec w} (h : x.toNat = n) : x = BitVec.ofNat w n := by
  rw [← h, BitVec.ofNat_toNat, BitVec.setWidth_eq]

/-- REGRD's part of the decoder: the selector is the command's, and the other fields are zero (30_encoding.md R76). -/
theorem encodeFields_of_decodeRegrd {sel : BitVec 4} {zero : Bool} {i : Instr} (h : decodeRegrd sel zero = .ok i) :
    zero = true ∧ encodeFields i = ⟨0xA, sel, 0, 0, 0⟩ := by
  unfold decodeRegrd at h
  split at h
  case h_7 => cases h -- no register has the selector
  all_goals
    rename_i hsel
    obtain ⟨hz, rfl⟩ := whenZero_eq_ok.1 h
    exact ⟨hz, by rw [eq_ofNat_of_toNat_eq hsel]; rfl⟩

/-- REGWR's part of the decoder: the fields are the command's (30_encoding.md R76). -/
theorem encodeFields_of_decodeRegwr {f : CmdFields} {i : Instr} (h : decodeRegwr f = .ok i) :
    encodeFields i = { f with op := 0xB } := by
  unfold decodeRegwr at h
  split at h
  case h_7 => cases h -- no register has the selector
  all_goals
    rename_i hsel
    obtain ⟨hz, rfl⟩ := whenZero_eq_ok.1 h
    simp_all [encodeFields, eq_ofNat_of_toNat_eq hsel]

/-- The fields that decode to a command are those of its word: the operation's case fixes OP, its must-be-zero check the fields
that hold no operand (30_encoding.md R75, R79). -/
theorem encodeFields_of_decodeFields {cfg : Config} {f : CmdFields} {i : Instr} (h : decodeFields cfg f = .ok i) :
    encodeFields i = f := by
  obtain ⟨op, sel, m, h, v⟩ := f
  unfold decodeFields at h
  split at h
  case h_16 => cases h -- OP 0
  all_goals
    rename_i hop
    obtain rfl := eq_ofNat_of_toNat_eq hop
  case h_10 => -- REGRD
    obtain ⟨hz, hi⟩ := encodeFields_of_decodeRegrd h
    simp_all
  case h_11 => exact encodeFields_of_decodeRegwr h -- REGWR
  case h_13 | h_14 | h_15 => -- the extension commands
    obtain ⟨-, h⟩ := whenExtension_eq_ok.1 h
    obtain ⟨hz, rfl⟩ := whenZero_eq_ok.1 h
    simp_all [encodeFields]
  all_goals
    obtain ⟨hz, rfl⟩ := whenZero_eq_ok.1 h
    simp_all [encodeFields]

/-- A command whose word decodes exists: the decoder hands the three extension commands to `whenExtension`. -/
theorem wellFormed_of_decodeFields_encodeFields {cfg : Config} {i j : Instr} (h : decodeFields cfg (encodeFields i) = .ok j) :
    i.wellFormed cfg = true := by
  cases i with
  | sbc v | ora v | eor v => exact (whenExtension_eq_ok.1 h).1
  | adc | and | setnz | setmask | contains | remove | getcarry | memread | memwrite | regrdA | regrdX | regrdY | regrdSP | regrdPC
  | regrdP | regwrA | regwrX | regwrY | regwrSP | regwrPC | regwrP | reset => rfl

/-- What the decoder accepts: exactly the words of the commands that exist (30_encoding.md R79). -/
theorem decode_eq_ok_iff {cfg : Config} {cw : CmdWord} {i : Instr} :
    decode cfg cw = .ok i ↔ encode i = cw ∧ i.wellFormed cfg = true := by
  constructor
  · intro h
    have hf : encodeFields i = fieldsOf cw := encodeFields_of_decodeFields h
    rw [decode, ← hf] at h
    exact ⟨by rw [encode, hf, wordOf_fieldsOf], wellFormed_of_decodeFields_encodeFields h⟩
  · rintro ⟨rfl, hw⟩
    exact decode_encode hw

/-! ### What the decoder rejects -/

@[simp] theorem whenZero_rejects {zero : Bool} {i : Instr} : (∃ why, whenZero zero i = .error why) ↔ zero = false := by
  cases zero <;> simp [whenZero]

@[simp] theorem whenExtension_rejects {cfg : Config} {r : Except DecodeReject Instr} :
    (∃ why, whenExtension cfg r = .error why) ↔ cfg.extAluOps = false ∨ ∃ why, r = .error why := by
  cases h : cfg.extAluOps <;> simp [whenExtension, h]

@[simp] theorem decodeRegrd_rejects {sel : BitVec 4} {zero : Bool} :
    (∃ why, decodeRegrd sel zero = .error why) ↔ 6 ≤ sel.toNat ∨ zero = false := by
  unfold decodeRegrd
  split
  case h_7 => -- no register has the selector
    have hsel : 6 ≤ sel.toNat := by grind
    simp [hsel]
  all_goals simp_all

@[simp] theorem decodeRegwr_rejects {f : CmdFields} :
    (∃ why, decodeRegwr f = .error why) ↔ 6 ≤ f.sel.toNat ∨ f.m ≠ 0 ∨ (f.h ≠ 0 ∧ f.sel.toNat ≠ 4) := by
  unfold decodeRegwr
  split
  case h_7 => -- no register has the selector
    have hsel : 6 ≤ f.sel.toNat := by grind
    simp [hsel]
  all_goals simp_all [imp_iff_not_or]

theorem toNat_ne_zero_iff {w : Nat} {x : BitVec w} : x.toNat ≠ 0 ↔ x ≠ 0#w := by
  simp [← BitVec.toNat_inj]

/-- The decoder rejects exactly the words of R78: each operation's case by its own must-be-zero fields, selectors and
parameter. -/
theorem decode_rejects_iff {cfg : Config} {cw : CmdWord} : (∃ why, decode cfg cw = .error why) ↔ ReservedWord cfg cw := by
  have hop : cw.extractLsb 31 28 = (fieldsOf cw).op := rfl
  have hsel : cw.extractLsb 27 24 = (fieldsOf cw).sel := rfl
  have hm : cw.extractLsb 23 16 = (fieldsOf cw).m := rfl
  have hh : cw.extractLsb 15 8 = (fieldsOf cw).h := rfl
  have hv : cw.extractLsb 7 0 = (fieldsOf cw).v := rfl
  simp only [ReservedWord, decode, hop, hsel, hm, hh, hv, toNat_ne_zero_iff]
  clear hop hsel hm hh hv
  generalize fieldsOf cw = f
  unfold decodeFields
  split
  case h_16 => -- OP 0
    have hlt := f.op.isLt
    have hop : f.op.toNat = 0 := by grind
    simp [hop]
  all_goals simp_all [imp_iff_not_or, or_assoc]

/-! ### The opcode table -/

/-- Every command has a row of its mnemonic that accepts its word. -/
theorem tableRow_of_instr (i : Instr) : Laws.TableWord.Statement i := by
  cases i with
  | adc v => exact Laws.TableWord.adc v
  | and v => exact Laws.TableWord.and v
  | setnz v => exact Laws.TableWord.setnz v
  | setmask m v => exact Laws.TableWord.setmask m v
  | contains m => exact Laws.TableWord.contains m
  | remove m => exact Laws.TableWord.remove m
  | getcarry => exact Laws.TableWord.getcarry
  | memread addr => exact Laws.TableWord.memread addr
  | memwrite addr d => exact Laws.TableWord.memwrite addr d
  | regrdA => exact Laws.TableWord.regrdA
  | regrdX => exact Laws.TableWord.regrdX
  | regrdY => exact Laws.TableWord.regrdY
  | regrdSP => exact Laws.TableWord.regrdSP
  | regrdPC => exact Laws.TableWord.regrdPC
  | regrdP => exact Laws.TableWord.regrdP
  | regwrA v => exact Laws.TableWord.regwrA v
  | regwrX v => exact Laws.TableWord.regwrX v
  | regwrY v => exact Laws.TableWord.regwrY v
  | regwrSP v => exact Laws.TableWord.regwrSP v
  | regwrPC w => exact Laws.TableWord.regwrPC w
  | regwrP v => exact Laws.TableWord.regwrP v
  | reset => exact Laws.TableWord.reset
  | sbc v => exact Laws.TableWord.sbc v
  | ora v => exact Laws.TableWord.ora v
  | eor v => exact Laws.TableWord.eor v

/-- A row accepts a word when its mask and match do, field by field. -/
theorem TableRow.accepts_iff_fields {r : TableRow} {cw : CmdWord} :
    r.accepts cw = true ↔ (fieldsOf cw).both (fieldsOf r.mask) = fieldsOf r.bits := by
  have hand : fieldsOf (cw &&& r.mask) = (fieldsOf cw).both (fieldsOf r.mask) := by
    rw [← wordOf_fieldsOf cw, ← wordOf_fieldsOf r.mask, wordOf_and, fieldsOf_wordOf, fieldsOf_wordOf, fieldsOf_wordOf]
  rw [TableRow.accepts, beq_iff_eq, ← hand]
  exact ⟨congrArg fieldsOf, fun h => by rw [← wordOf_fieldsOf (cw &&& r.mask), h, wordOf_fieldsOf]⟩

theorem nibble_and_full (x : BitVec 4) : x &&& 15#4 = x := BitVec.and_allOnes

theorem byte_and_full (x : Byte) : x &&& 255#8 = x := BitVec.and_allOnes

/-- Fields that a row accepts decode to a command of the row: the row's mask covers OP, SEL and the must-be-zero fields, so the
row's match fixes the decoder's case and passes its check. -/
theorem decodeFields_of_row {cfg : Config} (hext : cfg.extAluOps = true) {r : TableRow} (hr : r ∈ opcodeTable) {f : CmdFields}
    (hf : f.both (fieldsOf r.mask) = fieldsOf r.bits) : ∃ i, decodeFields cfg f = .ok i ∧ i.mnemonic = r.mnemonic := by
  obtain ⟨op, sel, m, h, v⟩ := f
  fin_cases hr
  all_goals
    simp_all [CmdFields.both, fieldsOf, nibble_and_full, byte_and_full, decodeFields, decodeRegrd, decodeRegwr, Instr.mnemonic]

/-! ### Words with an operand -/

theorem encode_regwrA (v : Byte) : encode (.regwrA v) = 0xB00000#24 ++ v := wordOf_byte (by decide)

theorem encode_setnz (v : Byte) : encode (.setnz v) = 0x300000#24 ++ v := wordOf_byte (by decide)

end Sys2Proof

namespace Sys2Proof.Machine

/-! ### The step of an issued word -/

/-- The step of a core not halted runs the command its oldest word decodes to (30_encoding.md R70). -/
theorem step_of_decode_ok {s : State} {cw : CmdWord} {rest : List CmdWord} {i : Instr} (hf : s.fault = none)
    (hq : s.cmds = cw :: rest) (hd : decode s.cfg cw = .ok i) : step s = exec i { s with cmds := rest } := by
  simp [step, acceptCommand, hf, hq, hd]

/-- INVERSION of the step of an issued word: the word's command ran, or the word was reserved. -/
theorem step_next_of_cmds {s t : State} {cw : CmdWord} {rest : List CmdWord} (hq : s.cmds = cw :: rest) (h : step s = .next t) :
    (∃ i, decode s.cfg cw = .ok i ∧ exec i { s with cmds := rest } = .next t) ∨
      ∃ why, decode s.cfg cw = .error why ∧ t = illegalFault cw { s with cmds := rest } := by
  obtain ⟨-, ⟨hq', -⟩ | ⟨cw', rest', hq', hcw⟩⟩ := step_next h
  · cases hq.symm.trans hq'
  · cases hq.symm.trans hq'
    exact hcw

/-- The response port and the fault latch after an issued word agree (30_encoding.md R77; 60_exceptions.md R204). -/
inductive Answered (t : State) : Prop where
  /-- OK, and the latch is empty. -/
  | ok (d : Half) (hf : t.fault = none) (hr : t.resp = some ⟨.ok, d⟩)
  /-- FAULT and the code of the latched fault. -/
  | fault (f : FaultRecord) (hf : t.fault = some f) (hr : t.resp = some ⟨.fault, faultWord f.code⟩)

/-- Each of the six effects of a command answers it. -/
theorem Effect.answered {s t : State} (he : Effect s t) (hf : s.fault = none) : Answered t := by
  cases he with
  | response | aluStatus | store => exact .ok _ hf rfl
  | register r w => exact .ok _ ((writeReg_fault r w s).trans hf) rfl
  | recreated => exact .ok _ rfl rfl
  | bounds => exact .fault _ rfl rfl

/-- The step of an issued word takes it off the port and answers it. -/
theorem step_answered {s t : State} {cw : CmdWord} {rest : List CmdWord} (hq : s.cmds = cw :: rest) (h : step s = .next t) :
    t.cmds = rest ∧ Answered t := by
  obtain ⟨i, -, he⟩ | ⟨why, -, rfl⟩ := step_next_of_cmds hq h
  · exact ⟨(exec_effect he).cmds_eq, (exec_effect he).answered (step_next h).1⟩
  · exact ⟨rfl, .fault _ rfl rfl⟩

/-- A command that does not fault answers the data of the response table (30_encoding.md R77). -/
theorem exec_resp {i : Instr} {s t : State} (h : exec i s = .next t) (hf : t.fault = none) :
    t.resp = some ⟨.ok, okData i s⟩ := by
  cases i with
  | adc v =>
    obtain ⟨-, rfl⟩ := exec_adc_next h
    rfl
  | sbc v =>
    obtain ⟨-, rfl⟩ := exec_sbc_next h
    rfl
  | memread addr =>
    obtain ⟨-, rfl⟩ | ⟨-, rfl⟩ := exec_memread_next h
    · rfl
    · cases hf
  | memwrite addr d =>
    obtain ⟨-, rfl⟩ | ⟨-, rfl⟩ := exec_memwrite_next h
    · rfl
    · cases hf
  | contains m =>
    cases h
    simp [okData, bit16, containsAll, readP, hardwired]
  | getcarry =>
    cases h
    have hc : flagC s = s.p.getLsbD 0 := (readP_getLsbD s 0).trans (Bool.or_false _)
    rw [okData, ← hc]
    rfl
  | and | ora | eor | setnz | setmask | remove | regrdA | regrdX | regrdY | regrdSP | regrdPC | regrdP | regwrA | regwrX | regwrY
  | regwrSP | regwrPC | regwrP | reset =>
    cases h
    rfl

/-! ### The words waiting on the port -/

/-- A command reads none of the words waiting: with other words there it does the same and leaves them. -/
theorem exec_cmds {i : Instr} {s t : State} (h : exec i s = .next t) (q : List CmdWord) :
    exec i { s with cmds := q } = .next { t with cmds := q } := by
  cases i with
  | adc v =>
    obtain ⟨hr, rfl⟩ := exec_adc_next h
    exact exec_adc hr
  | sbc v =>
    obtain ⟨hr, rfl⟩ := exec_sbc_next h
    exact exec_sbc hr
  | memread addr =>
    obtain ⟨hv, rfl⟩ | ⟨hv, rfl⟩ := exec_memread_next h
    · exact exec_memread_valid hv
    · exact exec_memread_invalid hv
  | memwrite addr d =>
    obtain ⟨hv, rfl⟩ | ⟨hv, rfl⟩ := exec_memwrite_next h
    · exact exec_memwrite_valid hv
    · exact exec_memwrite_invalid hv
  | and | ora | eor | setnz | setmask | contains | remove | getcarry | regrdA | regrdX | regrdY | regrdSP | regrdPC | regrdP | regwrA
  | regwrX | regwrY | regwrSP | regwrPC | regwrP | reset =>
    cases h
    rfl

/-- So the step of an issued word is the same whatever words wait behind it. -/
theorem step_cmds {s t : State} {cw : CmdWord} {rest : List CmdWord} (hq : s.cmds = cw :: rest) (h : step s = .next t)
    (q : List CmdWord) : step { s with cmds := cw :: q } = .next { t with cmds := q } := by
  have hf : s.fault = none := (step_next h).1
  obtain ⟨i, hd, he⟩ | ⟨why, hd, rfl⟩ := step_next_of_cmds hq h
  · exact (step_of_decode_ok (s := { s with cmds := cw :: q }) hf rfl hd).trans (exec_cmds he q)
  · exact step_of_decode_error (s := { s with cmds := cw :: q }) hf rfl hd

theorem stepN_succ_of_step {n : Nat} {s u : State} (h : step s = .next u) : stepN (n + 1) s = stepN n u := by
  simp [stepN, h]

theorem hostRun_cons_of_step {cw : CmdWord} {words : List CmdWord} {s u : State} (h : step (issueNext cw s) = .next u) :
    hostRun (cw :: words) s = hostRun words u := by
  simp [hostRun, h]

theorem issueAll_of_idle {s : State} (hq : s.cmds = []) (words : List CmdWord) :
    issueAll words s = { s with cmds := words } := by
  rw [issueAll, hq, List.nil_append]

/-- The step of a word issued alone is the step of that word with others issued behind it. -/
theorem step_issueAll_of_issueNext {cw : CmdWord} {s u : State} (hq : s.cmds = []) (h : step (issueNext cw s) = .next u)
    (words : List CmdWord) : u.cmds = [] ∧ step (issueAll (cw :: words) s) = .next (issueAll words u) := by
  have hu : u.cmds = [] := (step_answered (s := issueNext cw s) rfl h).1.trans hq
  rw [issueAll_of_idle hq, issueAll_of_idle hu]
  exact ⟨hu, step_cmds (s := issueNext cw s) rfl h words⟩

/-- A word that has a step with others issued behind it has one when it is issued alone. -/
theorem step_issueNext_of_issueAll {cw : CmdWord} {words : List CmdWord} {s v : State} (hq : s.cmds = [])
    (h : step (issueAll (cw :: words) s) = .next v) : ∃ u, step (issueNext cw s) = .next u := by
  rw [issueAll_of_idle hq] at h
  exact ⟨_, step_cmds (s := { s with cmds := cw :: words }) rfl h s.cmds⟩

/-- A host's run is the steps of its words issued at once, by induction on the words: both take the same step for the first,
which leaves an empty port on the one side and the rest of the words on the other. -/
theorem hostRun_complete_iff {words : List CmdWord} {s t : State} (hq : s.cmds = []) :
    hostRun words s = .complete t ↔ stepN words.length (issueAll words s) = .next t ∧ t.fault = none := by
  induction words generalizing s with
  | nil =>
    have hs : issueAll [] s = s := by simp [issueAll]
    rw [hs]
    constructor
    · intro h
      obtain ⟨hf, rfl⟩ := hostRun_nil_complete h
      exact ⟨rfl, hf⟩
    · rintro ⟨h, hf⟩
      cases h
      simp [hostRun, hf]
  | cons cw words ih =>
    have hstep {u : State} (hu : step (issueNext cw s) = .next u) :
        hostRun (cw :: words) s = .complete t ↔
          stepN (words.length + 1) (issueAll (cw :: words) s) = .next t ∧ t.fault = none := by
      obtain ⟨hqu, hall⟩ := step_issueAll_of_issueNext hq hu words
      rw [hostRun_cons_of_step hu, stepN_succ_of_step hall]
      exact ih hqu
    constructor
    · intro h
      obtain ⟨u, hu, -⟩ := hostRun_cons_complete h
      exact (hstep hu).1 h
    · intro h
      obtain ⟨v, hv, -⟩ := stepN_succ_next h.1
      obtain ⟨u, hu⟩ := step_issueNext_of_issueAll hq hv
      exact (hstep hu).2 h

end Sys2Proof.Machine

namespace Sys2Proof.Proofs

open Sys2Proof.Machine

/-- Settles O2: the decoder takes the fields of the word apart again and finds the case the encoder wrote. -/
theorem decodeOfEncode : Obligations.DecodeOfEncode :=
  fun _ _ => decode_encode

/-- Settles O3: the fields that decode to a command are the fields of its word. -/
theorem encodeOfDecode : Obligations.EncodeOfDecode :=
  fun _ _ _ => decode_eq_ok_iff.1

/-- Settles O4: each operation's case rejects exactly what R78 reserves under that OP. -/
theorem decoderRejectsExactlyReservedWords : Obligations.DecoderRejectsExactlyReservedWords :=
  fun _ _ => decode_rejects_iff

/-- Settles O5: a word that decodes is its command's word, which the command's row accepts; a row that accepts a word fixes the
decoder's case. -/
theorem decoderAgreesWithOpcodeTable : Obligations.DecoderAgreesWithOpcodeTable := by
  intro cfg cw n hext
  constructor
  · rintro ⟨i, hd, rfl⟩
    obtain ⟨rfl, -⟩ := decode_eq_ok_iff.1 hd
    exact tableRow_of_instr i
  · rintro ⟨r, hr, rfl, ha⟩
    exact decodeFields_of_row hext hr (TableRow.accepts_iff_fields.1 ha)

/-- Settles O6: the decoder rejects a reserved word, so its step raises IllegalCommand. -/
theorem reservedWordRaisesIllegalCommand : Obligations.ReservedWordRaisesIllegalCommand := by
  refine ⟨fun s cw rest hf hq hw => ?_, fun cfg => .inl rfl⟩
  obtain ⟨why, hd⟩ := decode_rejects_iff.2 hw
  exact step_of_decode_error hf hq hd

/-- Settles O13: OK comes with an empty latch and FAULT with a set one. -/
theorem everyCommandIsAnsweredOnce : Obligations.EveryCommandIsAnsweredOnce := by
  intro s t cw rest _ hq h
  obtain ⟨hcmds, ha⟩ := step_answered hq h
  refine ⟨hcmds, ?_⟩
  cases ha with
  | ok d hf hr => exact ⟨_, hr, by simp [hf]⟩
  | fault f hf hr => exact ⟨_, hr, by simp [hf]⟩

/-- Settles O16, by induction on the words. -/
theorem completeRunIsStepsOfIssuedWords : Obligations.CompleteRunIsStepsOfIssuedWords :=
  fun _ _ _ => hostRun_complete_iff

/-- Settles O50: without a fault the word decoded and its command answered by the table; with one the response carries its
code. -/
theorem responseFollowsTheTable : Obligations.ResponseFollowsTheTable := by
  intro s t cw rest _ hq h
  refine ⟨fun hf => ?_, fun f hf => ?_⟩
  · obtain ⟨i, hd, he⟩ | ⟨why, -, rfl⟩ := step_next_of_cmds hq h
    · -- the table does not read the command port
      have hdata : okData i { s with cmds := rest } = okData i s := rfl
      exact ⟨i, hd, hdata ▸ exec_resp he hf⟩
    · cases hf
  · obtain ⟨-, ha⟩ := step_answered hq h
    cases ha with
    | ok d hf' _ => cases hf.symm.trans hf'
    | fault g hf' hr =>
      cases hf.symm.trans hf'
      exact ⟨fun hc => by rw [hr, hc]; rfl, fun hc => by rw [hr, hc]; rfl⟩

/-- Settles O1: each of the sixteen words is evaluated. -/
theorem sampleWordsDecode : Obligations.SampleWordsDecode :=
  ⟨rfl, rfl, rfl, rfl, rfl, rfl, rfl, rfl, rfl, rfl, rfl, rfl, rfl, rfl, rfl, rfl⟩

/-- Settles O8: the words with no operand of the assembly line are evaluated, and LDA is REGWR.A and SETNZ of its operand. -/
theorem pseudoCommandWords : Obligations.PseudoCommandWords := by
  refine ⟨rfl, rfl, rfl, rfl, rfl, rfl, rfl, fun v => ?_, rfl⟩
  simp only [pseudoExpand, List.map, encode_regwrA, encode_setnz]

/-- Settles O9: the core accepts the word and the decoder names the command. -/
theorem stepRunsDecodedCommand : Obligations.StepRunsDecodedCommand :=
  fun _ _ _ _ => step_of_decode_ok

end Sys2Proof.Proofs
end

section
/-! PROOFS of the statements of 40_status_ops.md: the masked update and the mask test bit by bit, and the sign/zero tail. -/

namespace Sys2Proof

/-! ### The words of the commands with a mask -/

theorem encode_setmask (m v : Byte) : encode (.setmask m v) = 0x40#8 ++ m ++ 0x00#8 ++ v := wordOf_mask (by decide)

theorem encode_contains (m : Byte) : encode (.contains m) = 0x50#8 ++ m ++ 0x0000#16 :=
  wordOf_mask_half (by decide) (by decide)

theorem encode_remove (m : Byte) : encode (.remove m) = 0x60#8 ++ m ++ 0x0000#16 :=
  wordOf_mask_half (by decide) (by decide)

end Sys2Proof

namespace Sys2Proof.Machine

/-! ### P bit by bit after an update -/

/-- A bit of P other than U reads as it is stored (10_state.md R28). -/
theorem readP_getLsbD_of_ne_five (s : State) {k : Nat} (h5 : k ≠ 5) : (readP s).getLsbD k = s.p.getLsbD k := by
  rw [readP_getLsbD, decide_eq_false h5, Bool.or_false]

/-- The masked update as stored: bit 5 is 1, the others are those of `v` inside the mask and kept outside
(40_status_ops.md R105). -/
theorem maskedUpdate_p_getLsbD (m v : Byte) (s : State) {k : Nat} (hk : k < 8) :
    (maskedUpdate m v s).p.getLsbD k = if k = 5 then true else if m.getLsbD k then v.getLsbD k else s.p.getLsbD k := by
  by_cases h5 : k = 5
  · subst h5
    exact statusOk_writeP _ s
  · rw [if_neg h5, ← readP_getLsbD_of_ne_five _ h5, readP_maskedUpdate m v s hk h5, readP_getLsbD_of_ne_five s h5]

/-- REMOVE is the masked update with no flag among the values (40_status_ops.md R114). -/
theorem removeFlags_eq_maskedUpdate (m : Byte) (s : State) : removeFlags m s = maskedUpdate m 0x00 s := by
  simp [removeFlags, maskedUpdate]

/-! ### The mask test -/

/-- CONTAINS finds every flag of the mask set, U counting as set (40_status_ops.md R110, R111). -/
theorem containsAll_iff {m : Byte} {s : State} :
    containsAll m s = true ↔ ∀ k < 8, m.getLsbD k = true → (k = 5 ∨ s.p.getLsbD k = true) := by
  have hbit (k : Nat) : (readP s &&& m).getLsbD k = m.getLsbD k ↔
      (m.getLsbD k = true → (k = 5 ∨ s.p.getLsbD k = true)) := by
    rw [BitVec.getLsbD_and, readP_getLsbD]
    cases m.getLsbD k <;> simp [or_comm]
  simp only [containsAll, beq_iff_eq, ← hbit]
  exact ⟨fun h k _ => congrArg (·.getLsbD k) h, BitVec.eq_of_getLsbD_eq⟩

/-- CONTAINS of the empty mask answers 1 in every state (40_status_ops.md R112). -/
theorem containsAll_zero (s : State) : containsAll 0x00 s = true :=
  containsAll_iff.2 fun k _ h => by simp at h

theorem exec_contains_of_all {m : Byte} {s : State} (h : containsAll m s = true) :
    exec (.contains m) s = .next { s with resp := some ⟨.ok, 0x0001⟩ } :=
  congrArg (fun b => Host.Outcome.next (respond (bit16 b) s)) h

theorem bit16_eq_zero_or_one (b : Bool) : bit16 b = 0x0000 ∨ bit16 b = 0x0001 := by
  cases b <;> decide

theorem bit16_eq_one_iff {b : Bool} : bit16 b = 0x0001 ↔ b = true := by
  cases b <;> decide

/-! ### The sign/zero tail -/

/-- A byte whose bit 7 is 1 is not zero. -/
theorem ne_zero_of_sign {r : Byte} (h : r.getLsbD 7 = true) : r ≠ 0x00 := by
  rintro rfl
  exact absurd h (by decide)

/-- After every command of the tail, N and Z are those of the affected value (40_status_ops.md R104). -/
theorem exec_tail_flags {i : Instr} {s t : State} {r : Byte} (h : exec i s = .next t) (hr : tailValue i t = some r) :
    flagN t = r.getLsbD 7 ∧ flagZ t = decide (r = 0x00) := by
  cases i with
  | adc v =>
    obtain ⟨-, rfl⟩ := exec_adc_next h
    cases hr
    obtain ⟨n, z, -⟩ := finishArith_flags _ _ _ s
    exact ⟨n, z⟩
  | sbc v =>
    obtain ⟨-, rfl⟩ := exec_sbc_next h
    cases hr
    obtain ⟨n, z, -⟩ := finishArith_flags _ _ _ s
    exact ⟨n, z⟩
  | and | ora | eor =>
    cases h
    cases hr
    obtain ⟨n, z, -⟩ := finishLogic_flags _ s
    exact ⟨n, z⟩
  | setnz v =>
    cases h
    cases hr
    obtain ⟨n, z, -⟩ := nzTail_flags _ s
    exact ⟨n, z⟩
  | setmask | contains | remove | getcarry | memread | memwrite | reset | regrdA | regrdX | regrdY | regrdSP | regrdPC | regrdP
  | regwrA | regwrX | regwrY | regwrSP | regwrPC | regwrP => cases hr

end Sys2Proof.Machine

namespace Sys2Proof.Proofs

open Sys2Proof.Machine

/-- Settles O19: SETNZ answers after the sign/zero tail of its operand, and a byte with its sign bit set is not zero. -/
theorem setnzWritesSignAndZero : Obligations.SetnzWritesSignAndZero := by
  intro v s
  obtain ⟨n, z, c, o, b, d, i⟩ := nzTail_flags v s
  refine ⟨encode_setnz v, respond 0x0000 (nzTail v s), rfl, n, z, c, o, ⟨b, d, i, statusOk_writeP _ s⟩, ?_, rfl⟩
  rintro ⟨hn, hz⟩
  exact ne_zero_of_sign (n.symm.trans hn) (of_decide_eq_true (z.symm.trans hz))

/-- Settles O20: SETMASK answers after the masked update. -/
theorem setmaskWritesBitsOfMask : Obligations.SetmaskWritesBitsOfMask :=
  fun m v s => ⟨encode_setmask m v, respond 0x0000 (maskedUpdate m v s), rfl, fun _ => maskedUpdate_p_getLsbD m v s, rfl⟩

/-- Settles O21: REMOVE is SETMASK of the same mask with the values 0x00, whose bits are all 0. -/
theorem removeClearsBitsOfMask : Obligations.RemoveClearsBitsOfMask := by
  intro m s
  have hexec : exec (.remove m) s = exec (.setmask m 0x00) s :=
    congrArg (fun u => Host.Outcome.next (respond 0x0000 u)) (removeFlags_eq_maskedUpdate m s)
  refine ⟨encode_remove m, ⟨respond 0x0000 (maskedUpdate m 0x00 s), hexec, fun k hk => ?_, rfl⟩, hexec⟩
  rw [respond_p, maskedUpdate_p_getLsbD m 0x00 s hk, show (0x00 : Byte).getLsbD k = false from BitVec.getLsbD_zero]

/-- Settles O22: CONTAINS answers the mask test as 0 or 1, and the test holds of the empty mask and of U. -/
theorem containsTestsEveryFlag : Obligations.ContainsTestsEveryFlag :=
  fun m s =>
    ⟨encode_contains m, ⟨bit16 (containsAll m s), rfl, bit16_eq_zero_or_one _, bit16_eq_one_iff.trans containsAll_iff⟩,
      exec_contains_of_all (containsAll_zero s), exec_contains_of_all (containsAll_maskU s)⟩

/-- Settles O38: the tail writes N and Z from the value, and no later part of a command writes them again. -/
theorem signZeroTailFollowsResult : Obligations.SignZeroTailFollowsResult := by
  intro i s t r h hr
  obtain ⟨n, z⟩ := exec_tail_flags h hr
  exact ⟨by rw [z, decide_eq_true_iff], by rw [n]⟩

/-- Settles O23: the carry is bit 0 of P as stored, for only bit 5 reads otherwise. -/
theorem getcarryAnswersCarry : Obligations.GetcarryAnswersCarry := by
  refine ⟨rfl, fun s => ?_⟩
  rw [← readP_getLsbD_of_ne_five s (k := 0) (by decide)]
  rfl

end Sys2Proof.Proofs
end

section
/-! PROOFS of the statements of 41_memory_ops.md: MEMREAD and MEMWRITE at valid and at invalid addresses. -/

namespace Sys2Proof

/-! ### The words of the memory commands -/

theorem encode_memread (addr : Half) : encode (.memread addr) = 0x8000#16 ++ addr := wordOf_half (by decide)

theorem encode_memwrite (addr : Half) (d : Byte) : encode (.memwrite addr d) = 0x90#8 ++ d ++ addr :=
  wordOf_mask_half (by decide) (highByte_append_lowByte addr)

end Sys2Proof

namespace Sys2Proof.Proofs

open Sys2Proof.Machine

/-- Settles O26: below MEM_SIZE the command answers after one write, which reads back and keeps memory canonical; elsewhere it
takes the bounds fault. -/
theorem memwriteStoresOneByte : Obligations.MemwriteStoresOneByte := by
  refine fun addr d s => ⟨encode_memwrite addr d, fun ha hm => ?_, exec_memwrite_invalid⟩
  exact ⟨respond 0x0000 (writeByte addr.toNat d s), exec_memwrite_valid ha, readByte_writeByte hm.1 addr.toNat d,
    memoryOk_writeByte hm ha d, rfl⟩

/-- Settles O25: below MEM_SIZE the command answers the byte read; elsewhere it takes the bounds fault. -/
theorem memreadAnswersTheByte : Obligations.MemreadAnswersTheByte :=
  fun addr _ => ⟨encode_memread addr, exec_memread_valid, exec_memread_invalid⟩

end Sys2Proof.Proofs
end

section
/-! PROOFS of the statements of 42_alu_ops.md: ADC and AND, the two carry rules, and who reads the flag D. -/

namespace Sys2Proof

/-! ### The words of the commands -/

theorem encode_adc (v : Byte) : encode (.adc v) = 0x100000#24 ++ v := wordOf_byte (by decide)

theorem encode_and (v : Byte) : encode (.and v) = 0x200000#24 ++ v := wordOf_byte (by decide)

theorem encode_sbc (v : Byte) : encode (.sbc v) = 0xD00000#24 ++ v := wordOf_byte (by decide)

end Sys2Proof

namespace Sys2Proof.Machine

/-! ### Completion and refusal -/

theorem exec_adc_of_refused {s : State} (h : decimalRefused s = true) (v : Byte) : exec (.adc v) s = .refused .decimalAdc :=
  if_pos h

theorem exec_sbc_of_refused {s : State} (h : decimalRefused s = true) (v : Byte) : exec (.sbc v) s = .refused .decimalSbc :=
  if_pos h

/-- A command completes, or is an ADC or SBC that the decimal policy refuses (42_alu_ops.md R140; 43_alu_ext_ops.md R160). -/
theorem exec_next_or_refused (i : Instr) (s : State) :
    (∃ t, exec i s = .next t) ∨ (decimalRefused s = true ∧ ∃ v, i = .adc v ∨ i = .sbc v) := by
  cases i with
  | adc v =>
    cases hr : decimalRefused s with
    | false => exact .inl ⟨_, exec_adc hr⟩
    | true => exact .inr ⟨rfl, v, .inl rfl⟩
  | sbc v =>
    cases hr : decimalRefused s with
    | false => exact .inl ⟨_, exec_sbc hr⟩
    | true => exact .inr ⟨rfl, v, .inr rfl⟩
  | memread addr =>
    obtain ha | ha := Nat.lt_or_ge addr.toNat s.cfg.memSize
    · exact .inl ⟨_, exec_memread_valid ha⟩
    · exact .inl ⟨_, exec_memread_invalid ha⟩
  | memwrite addr d =>
    obtain ha | ha := Nat.lt_or_ge addr.toNat s.cfg.memSize
    · exact .inl ⟨_, exec_memwrite_valid ha⟩
    · exact .inl ⟨_, exec_memwrite_invalid ha⟩
  | and | ora | eor | setnz | setmask | contains | remove | getcarry | regrdA | regrdX | regrdY | regrdSP | regrdPC | regrdP | regwrA
  | regwrX | regwrY | regwrSP | regwrPC | regwrP | reset => exact .inl ⟨_, rfl⟩

/-! ### What ADC and the logic commands leave -/

/-- The next state of an ADC that completes (42_alu_ops.md R141 to R146). -/
structure AdcOutcome (v : Byte) (s t : State) : Prop where
  sum : t.a.toNat = (s.a.toNat + carry s + v.toNat) % 256
  flagN_eq : flagN t = t.a.getLsbD 7
  flagZ_eq : flagZ t = decide (t.a = 0x00)
  flagC_full : s.cfg.adcCarryRule = .full → flagC t = decide (256 ≤ s.a.toNat + carry s + v.toNat)
  flagC_literal : s.cfg.adcCarryRule = .literalCompare → flagC t = decide (t.a.toNat < s.a.toNat)
  flagV_eq : flagV t = overflow s.a v t.a
  kept : KeepsStorageFlags s t
  frame : t = { s with a := t.a, p := t.p, resp := some ⟨.ok, 0x0000⟩ }

theorem exec_adc_outcome {v : Byte} {s t : State} (h : exec (.adc v) s = .next t) : AdcOutcome v s t := by
  obtain ⟨-, rfl⟩ := exec_adc_next h
  obtain ⟨n, z, c, o, b, d, i⟩ := finishArith_flags (addBytes s.a (carry s) v)
    (adcCarryOut s.cfg.adcCarryRule s.a (carry s) v) (overflow s.a v (addBytes s.a (carry s) v)) s
  exact {
    sum := addBytes_toNat s.a (carry s) v
    flagN_eq := n
    flagZ_eq := z
    flagC_full := fun hrule => by rw [c, hrule]; rfl
    flagC_literal := fun hrule => by rw [c, hrule]; rfl
    flagV_eq := o
    kept := ⟨b, d, i, (statusOk_finish _ _ _ s).1⟩
    frame := rfl }

/-- A command that ends as the logic commands do has their outcome (42_alu_ops.md R148; 43_alu_ext_ops.md R166, R169). -/
theorem logicOutcome_of_finishLogic {i : Instr} {s : State} {r : Byte} (h : exec i s = .next (finishLogic r s)) :
    LogicOutcome i s r := by
  obtain ⟨n, z, c, o, b, d, f⟩ := finishLogic_flags r s
  exact ⟨finishLogic r s, h, rfl, n, z, c, o, ⟨b, d, f, (statusOk_finish r false false s).2⟩, rfl⟩

/-! ### Overflow and carry as arithmetic -/

theorem carry_eq_one_iff {s : State} : carry s = 1 ↔ flagC s = true := by
  rw [carry_eq]
  cases flagC s <;> decide

/-- The carry as a signed number. -/
theorem carry_cast (s : State) : (carry s : Int) = if flagC s then 1 else 0 := by
  rw [carry_eq, Nat.cast_ite, Nat.cast_one, Nat.cast_zero]

/-- Bit 7 is the sign of the signed value. -/
theorem bit7_iff_s8_neg {b : Byte} : b.getLsbD 7 = true ↔ s8 b < 0 := by
  rw [bit7_eq, s8_eq, decide_eq_true_iff]
  have := b.isLt
  split <;> omega

theorem bit7_eq_false_iff {b : Byte} : b.getLsbD 7 = false ↔ 0 ≤ s8 b := by
  rw [← Bool.not_eq_true, bit7_iff_s8_neg, not_lt]

/-- Overflow: two operands of one sign and a result of the other. -/
theorem overflow_iff_signs {a v r : Byte} :
    overflow a v r = true ↔ (s8 a < 0 ∧ s8 v < 0 ∧ 0 ≤ s8 r) ∨ (0 ≤ s8 a ∧ 0 ≤ s8 v ∧ s8 r < 0) := by
  simp only [overflow, Bool.or_eq_true, Bool.and_eq_true, Bool.not_eq_true', bit7_iff_s8_neg, bit7_eq_false_iff, and_assoc]

/-- The signs tell when the signed sum with the carry leaves the range of a byte (42_alu_ops.md R144). -/
theorem overflow_iff_signedSum {a v r : Byte} {c : Nat} (hc : c ≤ 1) (hr : r.toNat = (a.toNat + c + v.toNat) % 256) :
    overflow a v r = true ↔ s8 a + c + s8 v < -128 ∨ 127 < s8 a + c + s8 v := by
  have ha := a.isLt
  have hv := v.isLt
  rw [overflow_iff_signs, s8_eq, s8_eq, s8_eq]
  split <;> split <;> split <;> omega

/-- The carry of a sum of bytes in 8-bit terms: the sum wrapped round below its first operand, or all the way round to it
(42_alu_ops.md R143). -/
theorem carryOut_iff_wrapped {a v : Byte} {c r : Nat} (hc : c ≤ 1) (hr : r = (a.toNat + c + v.toNat) % 256) :
    256 ≤ a.toNat + c + v.toNat ↔ r < a.toNat ∨ (c = 1 ∧ r = a.toNat) := by
  have ha := a.isLt
  have hv := v.isLt
  omega

/-- The sum comes all the way round exactly when it adds the carry and 0xFF. -/
theorem wrapped_to_start_iff {a v : Byte} {c r : Nat} (hr : r = (a.toNat + c + v.toNat) % 256) :
    c = 1 ∧ r = a.toNat ↔ c = 1 ∧ v = 0xFF := by
  have ha := a.isLt
  have hv := v.isLt
  rw [← BitVec.toNat_inj, show (0xFF : Byte).toNat = 255 from rfl]
  omega

/-! ### Who reads D -/

/-- The state with D inverted, but for a command that has `written` D. -/
def flipDUnless (written : Bool) (s : State) : State := { s with p := if written then s.p else s.p ^^^ 0x08 }

/-- The state with D inverted. -/
abbrev flipD (s : State) : State := flipDUnless false s

/-- The inversion of D changes bit 3 of P, and that bit only while D is not written. -/
theorem flipDUnless_p_getLsbD (written : Bool) (s : State) (k : Nat) :
    (flipDUnless written s).p.getLsbD k = (s.p.getLsbD k ^^ (!written && decide (k = 3))) := by
  have h08 : (0x08 : Byte).getLsbD k = decide (k = 3) := by
    simp [show (0x08 : Byte) = BitVec.twoPow 8 3 from rfl, BitVec.getLsbD_twoPow, eq_comm]
  cases written with
  | false => rw [flipDUnless, if_neg Bool.false_ne_true, BitVec.getLsbD_xor, h08]; rfl
  | true => exact (Bool.xor_false _).symm

/-- The masked update writes D or carries it along. -/
theorem maskedUpdate_flipD (m v : Byte) (s : State) :
    maskedUpdate m v (flipD s) = flipDUnless (m.getLsbD 3) (maskedUpdate m v s) := by
  have hp : (maskedUpdate m v (flipD s)).p = (flipDUnless (m.getLsbD 3) (maskedUpdate m v s)).p := by
    apply BitVec.eq_of_getLsbD_eq
    intro k hk
    rw [flipDUnless_p_getLsbD, maskedUpdate_p_getLsbD m v _ hk, maskedUpdate_p_getLsbD m v _ hk, flipDUnless_p_getLsbD]
    by_cases h3 : k = 3
    · subst h3
      cases m.getLsbD 3 <;> simp
    · simp [h3]
  exact congrArg (fun p => { s with p := p }) hp

theorem removeFlags_flipD (m : Byte) (s : State) :
    removeFlags m (flipD s) = flipDUnless (m.getLsbD 3) (removeFlags m s) := by
  rw [removeFlags_eq_maskedUpdate, removeFlags_eq_maskedUpdate, maskedUpdate_flipD]

theorem nzTail_flipD (r : Byte) (s : State) : nzTail r (flipD s) = flipD (nzTail r s) := maskedUpdate_flipD _ _ s

theorem finishLogic_flipD (r : Byte) (s : State) : finishLogic r (flipD s) = flipD (finishLogic r s) := by
  rw [finishLogic, nzTail_flipD]
  rfl

theorem finishArith_flipD (r : Byte) (c v : Bool) (s : State) : finishArith r c v (flipD s) = flipD (finishArith r c v s) := by
  rw [finishArith, nzTail_flipD, maskedUpdate_flipD]
  rfl

theorem flagC_flipD (s : State) : flagC (flipD s) = flagC s := by
  rw [flagC, flagC, readP_getLsbD, readP_getLsbD, flipDUnless_p_getLsbD]
  simp

theorem carry_flipD (s : State) : carry (flipD s) = carry s := congrArg Bool.toNat (flagC_flipD s)

/-- CONTAINS of a mask without D does not test D. -/
theorem containsAll_flipD {m : Byte} (hm : m.getLsbD 3 = false) (s : State) : containsAll m (flipD s) = containsAll m s := by
  rw [Bool.eq_iff_iff, containsAll_iff, containsAll_iff]
  refine forall₃_congr fun k _ hk => ?_
  have h3 : k ≠ 3 := by
    rintro rfl
    cases hm.symm.trans hk
  simp [flipDUnless_p_getLsbD, h3]

/-- The commands that write D: those whose named flags have it (10_state.md R32). -/
def writesD : Instr → Bool
  | .setmask m _ | .remove m => m.getLsbD 3
  | .regwrP _ | .reset => true
  | .adc _ | .and _ | .sbc _ | .ora _ | .eor _ | .setnz _ | .contains _ | .getcarry | .memread _ | .memwrite _ _ => false
  | .regrdA | .regrdX | .regrdY | .regrdSP | .regrdPC | .regrdP => false
  | .regwrA _ | .regwrX _ | .regwrY _ | .regwrSP _ | .regwrPC _ => false

theorem namedFlags_getLsbD_three (i : Instr) : (namedFlags i).getLsbD 3 = writesD i := by
  cases i <;> simp [namedFlags, writesD]

/-- ADC and SBC are refused under no other policy than REFUSE. -/
theorem decimalRefused_eq_false {s : State} (h : (s.cfg.decimalPolicy == .refuse) = false) : decimalRefused s = false :=
  Bool.eq_false_iff.2 fun hr => beq_eq_false_iff_ne.1 h (decimalRefused_iff.1 hr).1

/-- A command that does not read D completes: only ADC and SBC under REFUSE can be refused. -/
theorem exec_next_of_not_readsDecimal {i : Instr} {s : State} (hd : readsDecimal s.cfg.decimalPolicy i = false) :
    ∃ t, exec i s = .next t := by
  obtain h | ⟨hr, v, rfl | rfl⟩ := exec_next_or_refused i s
  · exact h
  all_goals exact absurd hr (Bool.eq_false_iff.1 (decimalRefused_eq_false hd))

/-- A command that does not read D does the same with D inverted, and carries the inversion along unless it writes D
(10_state.md R31, R32). -/
theorem exec_flipD {i : Instr} {s t : State} (hd : readsDecimal s.cfg.decimalPolicy i = false) (h : exec i s = .next t) :
    exec i (flipD s) = .next (flipDUnless (writesD i) t) := by
  cases i with
  | adc v =>
    obtain ⟨-, rfl⟩ := exec_adc_next h
    rw [exec_adc (s := flipD s) (decimalRefused_eq_false hd), finishArith_flipD, carry_flipD]
    rfl
  | sbc v =>
    obtain ⟨-, rfl⟩ := exec_sbc_next h
    rw [exec_sbc (s := flipD s) (decimalRefused_eq_false hd), finishArith_flipD, carry_flipD]
    rfl
  | and v | ora v | eor v =>
    cases h
    exact congrArg Host.Outcome.next (finishLogic_flipD _ s)
  | setnz v =>
    cases h
    exact congrArg (fun u => Host.Outcome.next (respond 0x0000 u)) (nzTail_flipD v s)
  | setmask m v =>
    cases h
    exact congrArg (fun u => Host.Outcome.next (respond 0x0000 u)) (maskedUpdate_flipD m v s)
  | remove m =>
    cases h
    exact congrArg (fun u => Host.Outcome.next (respond 0x0000 u)) (removeFlags_flipD m s)
  | contains m =>
    cases h
    exact congrArg (fun b => Host.Outcome.next (respond (bit16 b) (flipD s))) (containsAll_flipD hd s)
  | getcarry =>
    cases h
    exact congrArg (fun b => Host.Outcome.next (respond (bit16 b) (flipD s))) (flagC_flipD s)
  | memread addr =>
    obtain ⟨hv, rfl⟩ | ⟨hv, rfl⟩ := exec_memread_next h
    · exact exec_memread_valid (s := flipD s) hv
    · exact exec_memread_invalid (s := flipD s) hv
  | memwrite addr d =>
    obtain ⟨hv, rfl⟩ | ⟨hv, rfl⟩ := exec_memwrite_next h
    · exact exec_memwrite_valid (s := flipD s) hv
    · exact exec_memwrite_invalid (s := flipD s) hv
  | regrdP => cases hd
  | regrdA | regrdX | regrdY | regrdSP | regrdPC | regwrA | regwrX | regwrY | regwrSP | regwrPC | regwrP | reset =>
    cases h
    rfl

end Sys2Proof.Machine

namespace Sys2Proof.Proofs

open Sys2Proof.Machine

/-- Settles O33: AND ends as the logic commands do. -/
theorem andResult : Obligations.AndResult :=
  fun v _ => ⟨encode_and v, logicOutcome_of_finishLogic rfl⟩

/-- Settles O29: ADC completes unless the decimal policy refuses it, and `AdcOutcome` says what it leaves. -/
theorem adcAddsWithCarry : Obligations.AdcAddsWithCarry := by
  refine fun v s => ⟨encode_adc v, fun h => exec_adc_of_refused (decimalRefused_iff.2 h) v, fun h => ?_⟩
  have hr : decimalRefused s = false := Bool.eq_false_iff.2 (mt decimalRefused_iff.1 h)
  obtain ⟨sum, n, z, full, literal, o, kept, frame⟩ := exec_adc_outcome (exec_adc (v := v) hr)
  rw [← carry_eq]
  exact ⟨_, exec_adc hr, sum, n, z, full, literal, o, kept, frame⟩

/-- Settles O30: V is the overflow of the operands and the sum. -/
theorem adcOverflowIsSignedOverflow : Obligations.AdcOverflowIsSignedOverflow := by
  intro v s t h
  have ht := exec_adc_outcome h
  rw [ht.flagV_eq, ← carry_cast]
  exact ⟨overflow_iff_signs, overflow_iff_signedSum (carry_le_one s) ht.sum⟩

/-- Settles O31: FULL is the unsigned carry, which in 8-bit terms is the literal comparison or a sum that came all the way round
to A, as it does when it adds the carry and 0xFF. -/
theorem adcCarryRulesCompared : Obligations.AdcCarryRulesCompared := by
  refine ⟨rfl, fun v s t h => ?_, fun v s t u ht hu => ?_⟩
  · have hout := exec_adc_outcome h
    have hwrap := carryOut_iff_wrapped (carry_le_one s) hout.sum
    rw [← carry_eq, ← carry_eq_one_iff (s := s)]
    refine ⟨fun hrule => ?_, fun hrule => ?_⟩
    · rw [hout.flagC_full hrule, decide_eq_true_iff]
      exact ⟨Iff.rfl, hwrap⟩
    · rw [hout.flagC_literal hrule, decide_eq_true_iff]
  · have hsum : t.a.toNat = (s.a.toNat + carry s + v.toNat) % 256 := (exec_adc_outcome ht).sum
    have hfull : flagC t = decide (256 ≤ s.a.toNat + carry s + v.toNat) := (exec_adc_outcome ht).flagC_full rfl
    have hliteral : flagC u = decide (t.a.toNat < s.a.toNat) := by
      rw [hsum.trans (exec_adc_outcome hu).sum.symm]
      exact (exec_adc_outcome hu).flagC_literal rfl
    have hround := wrapped_to_start_iff hsum
    have hwrap := carryOut_iff_wrapped (carry_le_one s) hsum
    rw [hfull, hliteral, Ne, decide_eq_decide, decide_eq_true_iff, decide_eq_false_iff_not, hwrap, ← carry_eq_one_iff, ← hround]
    refine ⟨by omega, ?_⟩
    rintro ⟨hc, hr⟩
    exact ⟨BitVec.eq_of_toNat_eq hr, .inr ⟨hc, hr⟩, by omega⟩

/-- Settles O32: the refusal is decided before anything else, and a command that does not read D completes, and carries D along
or writes it. -/
theorem decimalPolicyDecidesWhetherDIsRead : Obligations.DecimalPolicyDecidesWhetherDIsRead := by
  have carried (s : State) (i : Instr) (hd : readsDecimal s.cfg.decimalPolicy i = false) :
      ∃ t, exec i s = .next t ∧ exec i (flipD s) = .next (flipDUnless (writesD i) t) := by
    obtain ⟨t, h⟩ := exec_next_of_not_readsDecimal hd
    exact ⟨t, h, exec_flipD hd h⟩
  refine ⟨rfl, fun v s rest hpol hD => ?_, fun v s i hi => ?_, fun s i hd => ?_⟩
  · have hr : decimalRefused s = true := decimalRefused_iff.2 ⟨hpol, hD⟩
    refine ⟨exec_adc_of_refused hr v, exec_sbc_of_refused hr v, fun hf hq => ?_, fun hf hext hq => ?_⟩
    · rw [← encode_adc] at hq
      rw [step_of_decode_ok hf hq (decode_encode rfl)]
      exact exec_adc_of_refused (s := { s with cmds := rest }) hr v
    · rw [← encode_sbc] at hq
      rw [step_of_decode_ok hf hq (decode_encode hext)]
      exact exec_sbc_of_refused (s := { s with cmds := rest }) hr v
  · obtain ⟨hpol, rfl | rfl⟩ | rfl | rfl | rfl := hi
    · exact carried s (.adc v) (by rw [hpol]; rfl)
    · exact carried s (.sbc v) (by rw [hpol]; rfl)
    · exact carried s (.and v) rfl
    · exact carried s (.ora v) rfl
    · exact carried s (.eor v) rfl
  · rw [namedFlags_getLsbD_three]
    exact carried s i hd

end Sys2Proof.Proofs
end

section
/-! PROOFS of the statements of 43_alu_ext_ops.md: SBC, ORA and EOR, and the chains of bytes that carry. -/

namespace Sys2Proof

/-! ### The words of the commands -/

theorem encode_ora (v : Byte) : encode (.ora v) = 0xE00000#24 ++ v := wordOf_byte (by decide)

theorem encode_eor (v : Byte) : encode (.eor v) = 0xF00000#24 ++ v := wordOf_byte (by decide)

end Sys2Proof

namespace Sys2Proof.Machine

/-! ### SBC is ADC of the complement -/

/-- SBC's overflow rule is ADC's (43_alu_ext_ops.md R163). -/
theorem sbcOverflow_eq_overflow (a b r : Byte) : sbcOverflow a b r = overflow a b r := by
  unfold sbcOverflow overflow
  cases a.getLsbD 7 <;> cases b.getLsbD 7 <;> cases r.getLsbD 7 <;> rfl

/-- The state with the carry rule FULL. -/
abbrev underFull (s : State) : State := { s with cfg.adcCarryRule := .full }

/-- SBC of V does what ADC of ~V does under the rule FULL, whatever `ADC_CARRY_RULE` is (43_alu_ext_ops.md R161, R162). -/
theorem exec_adc_not_of_exec_sbc {v : Byte} {s t : State} (h : exec (.sbc v) s = .next t) :
    exec (.adc (~~~v)) (underFull s) = .next (underFull t) := by
  obtain ⟨hr, rfl⟩ := exec_sbc_next h
  rw [sbcOverflow_eq_overflow]
  exact exec_adc (s := underFull s) hr

/-! ### The sum and the difference as digits to base 256 -/

/-- Under FULL, A and the carry of an ADC are the two digits of its sum (42_alu_ops.md R142, R143). -/
theorem exec_adc_digits {v : Byte} {s t : State} (hrule : s.cfg.adcCarryRule = .full) (h : exec (.adc v) s = .next t) :
    t.a.toNat + 256 * carry t = s.a.toNat + carry s + v.toNat := by
  have hsum := (exec_adc_outcome h).sum
  have ha := s.a.isLt
  have hv := v.isLt
  have hc := carry_le_one s
  rw [carry_eq t, (exec_adc_outcome h).flagC_full hrule]
  simp only [decide_eq_true_eq]
  split <;> omega

/-- A and the carry of an SBC are the two digits of the difference less the borrow, plus 256 (43_alu_ext_ops.md R162). -/
theorem exec_sbc_digits {v : Byte} {s t : State} (h : exec (.sbc v) s = .next t) :
    t.a.toNat + v.toNat + 256 * carry t = s.a.toNat + carry s + 255 := by
  have hdigits : t.a.toNat + 256 * carry t = s.a.toNat + carry s + (~~~v).toNat :=
    exec_adc_digits (s := underFull s) (t := underFull t) rfl (exec_adc_not_of_exec_sbc h)
  rw [BitVec.toNat_not] at hdigits
  have hv := v.isLt
  omega

/-- The borrow of a subtraction is what the carry is short of 1 (43_alu_ext_ops.md R161). -/
theorem borrow_eq (s : State) : (if flagC s then 0 else 1) = 1 - carry s := by
  rw [carry_eq]
  cases flagC s <;> rfl

/-- The borrow as a signed number. -/
theorem borrow_cast (s : State) : (if flagC s then 0 else 1 : Int) = 1 - carry s := by
  rw [carry_cast]
  cases flagC s <;> rfl

/-! ### SBC's overflow as arithmetic -/

/-- The complement as a signed number (43_alu_ext_ops.md R163). -/
theorem s8_not (v : Byte) : s8 (~~~v) = -s8 v - 1 := by
  have hv := v.isLt
  rw [s8_eq, s8_eq, BitVec.toNat_not]
  split <;> split <;> omega

theorem sbcOverflow_iff_signs {a b r : Byte} :
    sbcOverflow a b r = true ↔ a.getLsbD 7 = b.getLsbD 7 ∧ r.getLsbD 7 ≠ a.getLsbD 7 := by
  rw [sbcOverflow, Bool.and_eq_true, beq_iff_eq, bne_iff_ne]

/-- The signs tell when the signed difference less the borrow leaves the range of a byte (43_alu_ext_ops.md R163). -/
theorem sbcOverflow_iff_signedDifference {a v r : Byte} {c : Nat} (hc : c ≤ 1)
    (hr : r.toNat = (a.toNat + c + (~~~v).toNat) % 256) :
    sbcOverflow a (~~~v) r = true ↔ s8 a - s8 v - (1 - c) < -128 ∨ 127 < s8 a - s8 v - (1 - c) := by
  have hsum : s8 a + c + s8 (~~~v) = s8 a - s8 v - (1 - c) := by
    rw [s8_not]
    ring
  rw [sbcOverflow_eq_overflow, overflow_iff_signedSum hc hr, hsum]

/-! ### What SBC leaves -/

/-- The next state of an SBC that completes, but for the carry, which `exec_sbc_digits` gives (43_alu_ext_ops.md R161, R163). -/
structure SbcOutcome (v : Byte) (s t : State) : Prop where
  sum : t.a.toNat = (s.a.toNat + carry s + (~~~v).toNat) % 256
  flagN_eq : flagN t = t.a.getLsbD 7
  flagZ_eq : flagZ t = decide (t.a = 0x00)
  flagV_eq : flagV t = sbcOverflow s.a (~~~v) t.a
  kept : KeepsStorageFlags s t
  frame : t = { s with a := t.a, p := t.p, resp := some ⟨.ok, 0x0000⟩ }

theorem exec_sbc_outcome {v : Byte} {s t : State} (h : exec (.sbc v) s = .next t) : SbcOutcome v s t := by
  have hadc := exec_adc_outcome (exec_adc_not_of_exec_sbc h)
  have hframe : t = { s with a := t.a, p := t.p, resp := some ⟨.ok, 0x0000⟩ } := by
    obtain ⟨-, rfl⟩ := exec_sbc_next h
    rfl
  exact {
    sum := hadc.sum
    flagN_eq := hadc.flagN_eq
    flagZ_eq := hadc.flagZ_eq
    flagV_eq := hadc.flagV_eq.trans (sbcOverflow_eq_overflow _ _ _).symm
    kept := hadc.kept
    frame := hframe }

end Sys2Proof.Machine

namespace Sys2Proof.Proofs

open Sys2Proof.Machine

/-- Settles O34: ORA ends as the logic commands do. -/
theorem oraResult : Obligations.OraResult :=
  fun v _ => ⟨encode_ora v, logicOutcome_of_finishLogic rfl⟩

/-- Settles O35: EOR ends as the logic commands do. -/
theorem eorResult : Obligations.EorResult :=
  fun v _ => ⟨encode_eor v, logicOutcome_of_finishLogic rfl⟩

/-- Settles O36: SBC completes unless the decimal policy refuses it; `SbcOutcome` says what it leaves, and A and C are the two
digits of the difference. -/
theorem sbcSubtractsWithBorrow : Obligations.SbcSubtractsWithBorrow := by
  refine fun v s => ⟨encode_sbc v, fun h => exec_sbc_of_refused (decimalRefused_iff.2 h) v, fun h => ?_⟩
  have hr : decimalRefused s = false := Bool.eq_false_iff.2 (mt decimalRefused_iff.1 h)
  obtain ⟨t, ht⟩ : ∃ t, exec (.sbc v) s = .next t := ⟨_, exec_sbc hr⟩
  obtain ⟨hsum, n, z, hV, kept, frame⟩ := exec_sbc_outcome ht
  have hdigits := exec_sbc_digits ht
  have hcs := carry_le_one s
  have hct := carry_le_one t
  have hta := t.a.isLt
  rw [borrow_eq, borrow_cast, ← carry_eq, ← carry_eq_one_iff (s := s)]
  refine ⟨t, ht, ?_, hsum, n, z, ?_, ?_, ?_, ?_, kept, frame⟩
  · omega
  · rw [← carry_eq_one_iff]
    omega
  · rw [← carry_eq_one_iff]
    omega
  · rw [hV]
    exact sbcOverflow_iff_signedDifference hcs hsum
  · rw [hV]
    exact sbcOverflow_iff_signs

/-- Settles O37: each command gives one digit and the carry to the next. -/
theorem chainsCarryBetweenBytes : Obligations.ChainsCarryBetweenBytes := by
  refine ⟨fun lo hi vlo vhi s t u hc ht hu => ?_, fun lo hi vlo vhi s t u hrule hc ht hu => ?_⟩
  · have hlo : t.a.toNat + vlo.toNat + 256 * carry t = lo.toNat + carry s + 255 := exec_sbc_digits ht
    have hhi : u.a.toNat + vhi.toNat + 256 * carry u = hi.toNat + carry t + 255 := exec_sbc_digits hu
    have hcs : carry s = 1 := carry_eq_one_iff.2 hc
    rw [← carry_eq_one_iff]
    have hcu := carry_le_one u
    have hta := t.a.isLt
    have hua := u.a.isLt
    constructor <;> omega
  · have hlo : t.a.toNat + 256 * carry t = lo.toNat + carry s + vlo.toNat := exec_adc_digits (s := { s with a := lo }) hrule ht
    have hhi : u.a.toNat + 256 * carry u = hi.toNat + carry t + vhi.toNat := by
      refine exec_adc_digits ?_ hu
      rw [(exec_adc_outcome ht).frame]
      exact hrule
    have hcs : carry s = 0 := congrArg Bool.toNat hc
    rw [← carry_eq_one_iff]
    have hcu := carry_le_one u
    have hta := t.a.isLt
    have hua := u.a.isLt
    constructor <;> omega

end Sys2Proof.Proofs
end

section
/-! PROOFS of the statements of 44_register_ops.md: REGRD and REGWR of each register and their reserved selectors, RESET, and the
commands that only observe. -/

namespace Sys2Proof

/-! ### The words of the register commands -/

theorem encode_regwrX (v : Byte) : encode (.regwrX v) = 0xB10000#24 ++ v := wordOf_byte (by decide)

theorem encode_regwrY (v : Byte) : encode (.regwrY v) = 0xB20000#24 ++ v := wordOf_byte (by decide)

theorem encode_regwrSP (v : Byte) : encode (.regwrSP v) = 0xB30000#24 ++ v := wordOf_byte (by decide)

theorem encode_regwrPC (w : Half) : encode (.regwrPC w) = 0xB400#16 ++ w := wordOf_half (by decide)

theorem encode_regwrP (v : Byte) : encode (.regwrP v) = 0xB50000#24 ++ v := wordOf_byte (by decide)

/-- A word with OP 0xA goes to the selector of REGRD (30_encoding.md R76). -/
theorem decode_regrdWord (cfg : Config) (sel : BitVec 4) (m h v : Byte) :
    decode cfg (0xA#4 ++ sel ++ m ++ h ++ v) = decodeRegrd sel (m == 0 && imm16 ⟨0xA, sel, m, h, v⟩ == 0) :=
  congrArg (decodeFields cfg) (fieldsOf_wordOf ⟨0xA, sel, m, h, v⟩)

/-- A word with OP 0xB goes to the selector of REGWR (30_encoding.md R76). -/
theorem decode_regwrWord (cfg : Config) (sel : BitVec 4) (m h v : Byte) :
    decode cfg (0xB#4 ++ sel ++ m ++ h ++ v) = decodeRegwr ⟨0xB, sel, m, h, v⟩ :=
  congrArg (decodeFields cfg) (fieldsOf_wordOf ⟨0xB, sel, m, h, v⟩)

/-- REGRD has no register 6 to 15 (44_register_ops.md R180). -/
theorem regrdWord_rejected (cfg : Config) {sel : BitVec 4} (hsel : 6 ≤ sel.toNat) (m h v : Byte) :
    ∃ why, decode cfg (0xA#4 ++ sel ++ m ++ h ++ v) = .error why := by
  rw [decode_regrdWord]
  exact decodeRegrd_rejects.2 (.inl hsel)

/-- REGWR has no register 6 to 15, and only PC has an upper byte to write (44_register_ops.md R183). -/
theorem regwrWord_rejected (cfg : Config) {sel : BitVec 4} {h : Byte} (hr : 6 ≤ sel.toNat ∨ (sel ≠ 4 ∧ h ≠ 0x00)) (m v : Byte) :
    ∃ why, decode cfg (0xB#4 ++ sel ++ m ++ h ++ v) = .error why := by
  rw [decode_regwrWord, decodeRegwr_rejects]
  obtain hsel | ⟨hpc, hh⟩ := hr
  · exact .inl hsel
  · exact .inr (.inr ⟨hh, fun h4 => hpc (BitVec.eq_of_toNat_eq h4)⟩)

end Sys2Proof

namespace Sys2Proof.Machine

/-! ### Writing a register -/

section
variable (v : Byte) (s : State)

theorem writeReg_A_zext16 : writeReg .A (zext16 v) s = { s with a := v } := by rw [writeReg, byteOf_zext16]

theorem writeReg_X_zext16 : writeReg .X (zext16 v) s = { s with x := v } := by rw [writeReg, byteOf_zext16]

theorem writeReg_Y_zext16 : writeReg .Y (zext16 v) s = { s with y := v } := by rw [writeReg, byteOf_zext16]

theorem writeReg_SP_zext16 : writeReg .SP (zext16 v) s = { s with sp := v } := by rw [writeReg, byteOf_zext16]

theorem writeReg_P_zext16 : writeReg .P (zext16 v) s = writeP v s := by rw [writeReg, byteOf_zext16]

end

/-- REGWR answers OK 0x0000 after the write. -/
theorem writeCommand_of_writeReg {r : Reg} {w : Half} {s t : State} (h : writeReg r w s = t) :
    writeCommand r w s = .next (respond 0x0000 t) := by
  rw [writeCommand, h]

/-- The masked update inside the full mask keeps nothing of P (40_status_ops.md R106). -/
theorem maskedUpdate_allFlags (v : Byte) (s : State) : maskedUpdate 0xFF v s = writeP v s := by
  have hkept : readP s &&& ~~~(0xFF : Byte) = 0#8 := BitVec.and_zero
  have hset : v &&& 0xFF = v := byte_and_full v
  rw [maskedUpdate, hkept, hset, BitVec.zero_or]

/-! ### The reset state -/

/-- A core as created is in the reset state (70_reset_and_hazards.md R230). -/
theorem isResetState_create (cfg : Config) : IsResetState (State.create cfg) :=
  ⟨rfl, rfl, rfl, rfl, rfl, rfl, fun _ => rfl, rfl⟩

/-- RESET answers the created state, the words waiting kept (44_register_ops.md R187, R188; log 16). -/
theorem exec_reset (s : State) :
    exec .reset s = .next { State.create s.cfg with cmds := s.cmds, resp := some ⟨.ok, 0x0000⟩ } := rfl

/-- The reset state says nothing of the two ports (log 1, log 2). -/
theorem IsResetState.with_ports {s : State} (h : IsResetState s) (cmds : List CmdWord) (resp : Option Response) :
    IsResetState { s with cmds := cmds, resp := resp } := h

/-! ### Observations -/

/-- INVERSION of an observation that does not fault: it only responds, and what it responds does not depend on the response
before it (44_register_ops.md R181). -/
theorem observation_next {i : Instr} {s t : State} (hi : isObservation i = true) (h : exec i s = .next t) (hf : t.fault = none) :
    ∃ d, t = respond d s ∧ ∀ e, exec i (respond e s) = .next (respond d s) := by
  cases i with
  | memread addr =>
    obtain ⟨hv, rfl⟩ | ⟨-, rfl⟩ := exec_memread_next h
    · exact ⟨_, rfl, fun e => exec_memread_valid (s := respond e s) hv⟩
    · cases hf
  | contains | getcarry | regrdA | regrdX | regrdY | regrdSP | regrdPC | regrdP =>
    cases h
    exact ⟨_, rfl, fun _ => rfl⟩
  | adc | and | sbc | ora | eor | setnz | setmask | remove | memwrite | reset | regwrA | regwrX | regwrY | regwrSP | regwrPC
  | regwrP => cases hi

end Sys2Proof.Machine

namespace Sys2Proof.Proofs

open Sys2Proof.Machine

/-- Settles O49: an observation only responds, and the same again responds the same. -/
theorem observationsHaveNoSideEffect : Obligations.ObservationsHaveNoSideEffect := by
  intro i s t hi _ h hf
  obtain ⟨d, rfl, hagain⟩ := observation_next hi h hf
  exact ⟨rfl, fun _ => rfl, hagain d⟩

/-- Settles O17: RESET answers the created state, and a core whose latch is set has no step. -/
theorem creationAndResetGiveResetState : Obligations.CreationAndResetGiveResetState := by
  refine ⟨rfl, isResetState_create, isResetState_create _, fun s => ?_, fun _ _ _ hf _ => step_of_fault hf⟩
  exact ⟨_, exec_reset s, (isResetState_create s.cfg).with_ports _ _, rfl⟩

/-- Settles O18: the state RESET answers names only the parameters and the words waiting. -/
theorem resetReplacesWholeState : Obligations.ResetReplacesWholeState := by
  refine ⟨exec_reset, fun s s' hcfg hcmds => ?_⟩
  rw [exec_reset, exec_reset, hcfg, hcmds]

/-- Settles O24: both commands write the operand to P, bit 5 set. -/
theorem setmaskOfAllIsWriteOfP : Obligations.SetmaskOfAllIsWriteOfP := by
  intro v s
  calc exec (.setmask 0xFF v) s
    _ = .next (respond 0x0000 (writeP v s)) := by rw [exec, execSetmask, maskedUpdate_allFlags]
    _ = exec (.regwrP v) s := (writeCommand_of_writeReg (writeReg_P_zext16 v s)).symm

/-- Settles O40: each arm reads its register, and the decoder rejects the selectors of no register. -/
theorem regrdAnswersTheRegister : Obligations.RegrdAnswersTheRegister := by
  refine ⟨⟨rfl, rfl, rfl, rfl, rfl, rfl⟩, fun s => ⟨rfl, rfl, rfl, rfl, rfl, rfl, fun rest sel m h v hf hsel hq => ?_⟩⟩
  obtain ⟨why, hd⟩ := regrdWord_rejected s.cfg hsel m h v
  exact step_of_decode_error hf hq hd

/-- Settles O41: each arm writes its register and answers, and the decoder rejects the selectors of no register and an upper
byte for an 8-bit one. -/
theorem regwrWritesTheRegister : Obligations.RegwrWritesTheRegister := by
  refine fun v w s => ⟨⟨encode_regwrA v, encode_regwrX v, encode_regwrY v, encode_regwrSP v, encode_regwrPC w, encode_regwrP v⟩,
    writeCommand_of_writeReg (writeReg_A_zext16 v s), writeCommand_of_writeReg (writeReg_X_zext16 v s),
    writeCommand_of_writeReg (writeReg_Y_zext16 v s), writeCommand_of_writeReg (writeReg_SP_zext16 v s),
    writeCommand_of_writeReg rfl, writeCommand_of_writeReg (writeReg_P_zext16 v s), fun rest sel m h hf hr hq => ?_⟩
  obtain ⟨why, hd⟩ := regwrWord_rejected s.cfg hr m v
  exact step_of_decode_error hf hq hd

end Sys2Proof.Proofs
end

section
/-! PROOFS of the statements of 60_exceptions.md: which command faults and what the fault changes, the halt after it, and the core
with no command. -/

namespace Sys2Proof.Machine

/-! ### The command that faults -/

/-- Only a MEMREAD or MEMWRITE not below `MEM_SIZE` sets an empty latch, and its whole effect is the bounds fault
(60_exceptions.md R200, R203). -/
theorem exec_sets_latch {i : Instr} {s t : State} {f : FaultRecord} (hs : s.fault = none) (h : exec i s = .next t)
    (hf : t.fault = some f) :
    ∃ addr : Half, (i = .memread addr ∨ ∃ d, i = .memwrite addr d) ∧ s.cfg.memSize ≤ addr.toNat ∧ t = boundsFault addr s := by
  cases i with
  | memread addr =>
    obtain ⟨-, rfl⟩ | ⟨hv, rfl⟩ := exec_memread_next h
    · cases hs.symm.trans hf
    · exact ⟨addr, .inl rfl, hv, rfl⟩
  | memwrite addr d =>
    obtain ⟨-, rfl⟩ | ⟨hv, rfl⟩ := exec_memwrite_next h
    · cases hs.symm.trans hf
    · exact ⟨addr, .inr ⟨d, rfl⟩, hv, rfl⟩
  | adc v =>
    obtain ⟨-, rfl⟩ := exec_adc_next h
    cases hs.symm.trans hf
  | sbc v =>
    obtain ⟨-, rfl⟩ := exec_sbc_next h
    cases hs.symm.trans hf
  | reset =>
    cases h
    cases hf
  | and | ora | eor | setnz | setmask | contains | remove | getcarry | regrdA | regrdX | regrdY | regrdSP | regrdPC | regrdP | regwrA
  | regwrX | regwrY | regwrSP | regwrPC | regwrP =>
    cases h
    cases hs.symm.trans hf

/-! ### Runs, an idle core and a halted one -/

/-- A core not halted with no word issued holds its state (60_exceptions.md R217; log 4). -/
theorem step_of_idle {s : State} (hf : s.fault = none) (hq : s.cmds = []) : step s = .next s := by
  simp [step, acceptCommand, holdState, hf, hq]

theorem stepN_of_fault {n : Nat} {s : State} {latch : FaultRecord} (h : s.fault = some latch) :
    stepN (n + 1) s = .fault (.halted latch) := by
  simp [stepN, step_of_fault h]

/-- A run of `k + n` steps is one of `k` steps and then one of `n`, by induction on the first part. -/
theorem stepN_add_next {k n : Nat} {s t : State} (h : stepN (k + n) s = .next t) :
    ∃ u, stepN k s = .next u ∧ stepN n u = .next t := by
  induction k generalizing s with
  | zero => exact ⟨s, rfl, Nat.zero_add n ▸ h⟩
  | succ k ih =>
    rw [Nat.add_right_comm] at h
    obtain ⟨v, hv, hrest⟩ := stepN_succ_next h
    obtain ⟨u, hu, ht⟩ := ih hrest
    exact ⟨u, (stepN_succ_of_step hv).trans hu, ht⟩

end Sys2Proof.Machine

namespace Sys2Proof.Proofs

open Sys2Proof.Machine

/-- Settles O11: the run is its first `k` steps and then at least one more, which a halted core does not have. -/
theorem onlyTheLastCommandCanFault : Obligations.OnlyTheLastCommandCanFault := by
  intro n s t h k hk
  obtain ⟨d, rfl⟩ := Nat.exists_eq_add_of_le hk
  obtain ⟨u, hu, hrest⟩ := stepN_add_next (n := d + 1) h
  obtain ⟨v, hv, -⟩ := stepN_succ_next hrest
  exact ⟨u, hu, (step_next hv).1⟩

/-- Settles O14: the word decoded to a memory command out of range, or the decoder rejected it. -/
theorem faultIsPrecise : Obligations.FaultIsPrecise := by
  intro s t f hs h hf
  obtain ⟨-, ⟨-, rfl⟩ | ⟨cw, rest, hq, ⟨i, hd, he⟩ | ⟨why, hd, rfl⟩⟩⟩ := step_next h
  · cases hs.symm.trans hf
  · obtain ⟨addr, hi, hv, rfl⟩ := exec_sets_latch (s := { s with cmds := rest }) hs he hf
    have hword : decode s.cfg cw = .ok (.memread addr) ∨ ∃ d, decode s.cfg cw = .ok (.memwrite addr d) := by
      obtain rfl | ⟨d, rfl⟩ := hi
      · exact .inl hd
      · exact .inr ⟨d, hd⟩
    cases hf
    exact ⟨cw, rest, hq, .inl ⟨addr, hword, hv, rfl, rfl⟩⟩
  · cases hf
    exact ⟨cw, rest, hq, .inr ⟨decode_rejects_iff.1 ⟨why, hd⟩, rfl, rfl⟩⟩

/-- Settles O39: a command that completes with the latch set is one of the two memory commands, and one that does not complete is
refused by the decimal policy. -/
theorem arithmeticAndRegisterCommandsNeverFault : Obligations.ArithmeticAndRegisterCommandsNeverFault := by
  intro i s hread hwrite hs
  obtain ⟨t, h⟩ | ⟨hr, v, hi⟩ := exec_next_or_refused i s
  · refine .inl ⟨t, h, Option.eq_none_iff_forall_ne_some.2 fun f hf => ?_⟩
    obtain ⟨addr, hi | ⟨d, hi⟩, -⟩ := exec_sets_latch hs h hf
    · exact hread addr hi
    · exact hwrite addr d hi
  · obtain ⟨hpolicy, hflag⟩ := decimalRefused_iff.1 hr
    refine .inr ⟨hpolicy, hflag, ?_⟩
    obtain rfl | rfl := hi
    · exact .inl ⟨v, rfl, exec_adc_of_refused hr v⟩
    · exact .inr ⟨v, rfl, exec_sbc_of_refused hr v⟩

/-- Settles O10: the first step already answers the fault. -/
theorem haltedCoreHasNoStep : Obligations.HaltedCoreHasNoStep :=
  fun _ _ _ => stepN_of_fault

/-- Settles O12, by induction on the number of steps. -/
theorem idleCoreHoldsItsState : Obligations.IdleCoreHoldsItsState := by
  intro n s hf hq
  induction n with
  | zero => rfl
  | succ n ih => exact (stepN_succ_of_step (step_of_idle hf hq)).trans ih

end Sys2Proof.Proofs
end
